-- ==== Sys2Proof/Word.lean ====
section
/-! DEFINITION. The word types of the block, at the widths rule R6 gives them (defaults WW = 8, CW = 32, VW = 32,
RW = 40).  Every quantity is unsigned (rules R8, R127). -/

namespace Sys2Proof

/-- One cell of BUF: a byte (rule R30).  Numeric bit 0 is the least significant bit; stream bit `j` is numeric bit
`7 - j` (rule R7). -/
abbrev Byte := BitVec 8

/-- One cell of SRC or DST: a value word of `VW` bits (rules R6, R30). -/
abbrev Value := BitVec 32

/-- The `bit_width` operand, `WW` bits (rules R6, R55). -/
abbrev WidthOperand := BitVec 8

/-- The `count` and `buf_len` operands and a cell index, `CW` bits (rules R6, R55). -/
abbrev CountOperand := BitVec 32

/-- The running bit cursor `BITPOS`, `CW + 3` bits (rule R12). -/
abbrev BitPosition := BitVec 35

/-- The `result` field of a response, `RW` bits (rules R6, R59). -/
abbrev ResultWord := BitVec 40

/-- The flat command word of `2 + WW + 2·CW` bits (rule R56). -/
abbrev CmdWord := BitVec 74

end Sys2Proof
end

