-- ==== Sys2Proof/Config.lean ====
section
/-! DEFINITION. What an implementation fixes (rule R6): the widths as constants at their defaults, and the static
parameters STRICT, BUF_CAP and VAL_CAP as a record that a machine carries and no step changes.  The value an unwritten
memory cell reads as is here too (log entry 1). -/

namespace Sys2Proof.Config

/-- `WW`, the width of `bit_width` (rule R6). -/
abbrev WW : Nat := 8
/-- `CW`, the width of `count`, `buf_len` and of an index (rule R6). -/
abbrev CW : Nat := 32
/-- `VW`, the width of a value word (rule R6). -/
abbrev VW : Nat := 32
/-- `RW = WW + CW`, the width of a response's `result` (rule R6). -/
abbrev RW : Nat := WW + CW

/-- The static parameters of rule R6 whose value changes what the block does or may touch.  They are no state: no step
writes them (rule R17, rule R171: "not state; reset does not touch it"). -/
structure Params where
  /-- `STRICT`: PACK rejects a value above `2^w - 1` (rules R82, R143). -/
  strict : Bool
  /-- `BUF_CAP`: how many bytes exist in BUF. -/
  bufCap : Nat
  /-- `VAL_CAP`: how many words exist in SRC and in DST. -/
  valCap : Nat
  deriving DecidableEq, Repr

/-- The defaults of rule R6: masking mode, every index exists. -/
def Params.default : Params := { strict := false, bufCap := 4294967296, valCap := 4294967296 }

/-- An index has `CW` bits (rule R6), so no more than `2^CW = 4294967296` cells can exist in a space. -/
def Params.wf (p : Params) : Bool := decide (p.bufCap ≤ 4294967296) && decide (p.valCap ≤ 4294967296)

/-- What a byte of BUF reads as while nothing has written it.  DESIGN CHOICE (log entry 1): rule R171 leaves the
content at power-up unspecified; a state that lists its cells stands for any other content. -/
abbrev unwrittenByte : Byte := 0#8

/-- What a word of SRC or DST reads as while nothing has written it.  DESIGN CHOICE (log entry 1). -/
abbrev unwrittenValue : Value := 0#32

end Sys2Proof.Config
end

