-- ==== Sys2Proof/Syntax.lean ====
section
/-! DEFINITION. The commands of the block (rules R55, R57): one constructor per row of the opcode table, each with the
three operand fields of the command record, since every command latches all of them (rule R13). -/

namespace Sys2Proof

/-- A command.  Its operands have the widths of rule R55, so a command that does not fit them cannot be written;
`WellFormed.lean` holds the checks for a command written with plain numbers. -/
inductive Instr where
  /-- `SIZE w, n` (`op = 0b00`, rule R70); `bufLen` is carried and ignored. -/
  | size (bitWidth : WidthOperand) (count bufLen : CountOperand)
  /-- `PACK w, n, len` (`op = 0b01`, rule R80). -/
  | pack (bitWidth : WidthOperand) (count bufLen : CountOperand)
  /-- `UNPACK w, n, len` (`op = 0b10`, rule R100). -/
  | unpack (bitWidth : WidthOperand) (count bufLen : CountOperand)
  /-- The reserved code (`op = 0b11`, rule R58); its operands are carried and ignored. -/
  | reserved (bitWidth : WidthOperand) (count bufLen : CountOperand)
  deriving DecidableEq, Repr

/-- The command's `bit_width` field (rule R55). -/
def Instr.bitWidth : Instr → WidthOperand
  | .size w _ _ => w
  | .pack w _ _ => w
  | .unpack w _ _ => w
  | .reserved w _ _ => w

/-- The command's `count` field (rule R55). -/
def Instr.count : Instr → CountOperand
  | .size _ n _ => n
  | .pack _ n _ => n
  | .unpack _ n _ => n
  | .reserved _ n _ => n

/-- The command's `buf_len` field (rule R55). -/
def Instr.bufLen : Instr → CountOperand
  | .size _ _ l => l
  | .pack _ _ l => l
  | .unpack _ _ l => l
  | .reserved _ _ l => l

end Sys2Proof
end

