-- ==== Sys2Proof/WellFormed.lean ====
section
/-! DEFINITION. A command written with plain numbers (the record of rule R55, `.cmd op, w, n, len` of rule R60), the
checks that its four fields fit their widths, and the assembler lines of rule R60. -/

namespace Sys2Proof

/-- The command record of rule R55 with its fields as plain numbers, as a host writes them. -/
structure RawCommand where
  op : Nat
  bitWidth : Nat
  count : Nat
  bufLen : Nat
  deriving DecidableEq, Repr

/-- `op` has 2 bits (rule R55). -/
def RawCommand.opFits (c : RawCommand) : Bool := decide (c.op < 4)
/-- `bit_width` has `WW` bits, `256 = 2^WW` (rule R55). -/
def RawCommand.bitWidthFits (c : RawCommand) : Bool := decide (c.bitWidth < 256)
/-- `count` has `CW` bits, `4294967296 = 2^CW` (rule R55). -/
def RawCommand.countFits (c : RawCommand) : Bool := decide (c.count < 4294967296)
/-- `buf_len` has `CW` bits (rule R55). -/
def RawCommand.bufLenFits (c : RawCommand) : Bool := decide (c.bufLen < 4294967296)

/-- A command that can be presented on the command port: each field fits its width.  Nothing else is checked here: an
illegal operand value such as `bit_width = 0` is a well-formed command that the block answers (rule R58). -/
def RawCommand.wf (c : RawCommand) : Bool := c.opFits && c.bitWidthFits && c.countFits && c.bufLenFits

/-- A line of the assembler of rule R60: the three mnemonics, the two pseudo-instructions with the exactly-sized buffer,
and the raw command, the only way to write the reserved code. -/
inductive AsmLine where
  | size (w n : Nat)
  | pack (w n len : Nat)
  | unpack (w n len : Nat)
  | packExact (w n : Nat)
  | unpackExact (w n : Nat)
  | cmd (op w n len : Nat)
  deriving DecidableEq, Repr

end Sys2Proof
end

