-- ==== Sys2Proof/Decode.lean ====
section
/-! DEFINITION. The decoder of the flat command word (rules R56, R57), total on every word; the same on bytes, with the
rejections named; after it the encoder and the assembler of rule R60. -/

namespace Sys2Proof

/-- The operation code of each command (rule R57). -/
def Instr.opCode : Instr → BitVec 2
  | .size _ _ _ => 0#2
  | .pack _ _ _ => 1#2
  | .unpack _ _ _ => 2#2
  | .reserved _ _ _ => 3#2

/-- The command with a given operation code (rule R57): the decoder is total, each code has exactly one meaning. -/
def Instr.ofFields (op : BitVec 2) (w : WidthOperand) (n len : CountOperand) : Instr :=
  if op = 0#2 then .size w n len
  else if op = 1#2 then .pack w n len
  else if op = 2#2 then .unpack w n len
  else .reserved w n len

/-- Field `op`, bits `[1:0]` of the flat word (rule R56). -/
def opField (word : CmdWord) : BitVec 2 := word.extractLsb' 0 2
/-- Field `bit_width`, bits `[9:2]` (rule R56). -/
def bitWidthField (word : CmdWord) : WidthOperand := word.extractLsb' 2 8
/-- Field `count`, bits `[41:10]` (rule R56). -/
def countField (word : CmdWord) : CountOperand := word.extractLsb' 10 32
/-- Field `buf_len`, bits `[73:42]` (rule R56). -/
def bufLenField (word : CmdWord) : CountOperand := word.extractLsb' 42 32

/-- The decoder: every command word has exactly one of the four meanings of rule R57 (rule R58 (d)). -/
def decode (word : CmdWord) : Instr :=
  Instr.ofFields (opField word) (bitWidthField word) (countField word) (bufLenField word)

/-- Why a byte string holds no command. -/
inductive DecodeReject where
  /-- Fewer than the ten bytes of one command. -/
  | commandTooShort
  /-- A bit above bit 73 is set: the flat word has 74 bits and there is one command length (rule R56). -/
  | bitsBeyondCommand
  deriving DecidableEq, Repr

/-- The number a byte string spells, first byte least significant (log entry 6). -/
def numberOfBytes : List Byte → Nat
  | [] => 0
  | b :: rest => b.toNat + 256 * numberOfBytes rest

/-- The first `k` bytes of a number, least significant first (log entry 6). -/
def bytesOfNumber : Nat → Nat → List Byte
  | 0, _ => []
  | k + 1, x => BitVec.ofNat 8 x :: bytesOfNumber k (x / 256)

/-- How many whole bytes hold the 74 bits of a command word. -/
def commandBytes : Nat := 10

/-- The decoder on bytes: the first ten bytes hold one command, least significant byte first, the six bits above the
word zero; the rest of the bytes is given back.  DESIGN CHOICE (log entry 6): the spec gives the word, no byte layout. -/
def decodeBytes (bytes : List Byte) : Except DecodeReject (Instr × List Byte) :=
  if bytes.length < commandBytes then .error .commandTooShort
  else
    let x := numberOfBytes (bytes.take commandBytes)
    if x < 2 ^ 74 then .ok (decode (BitVec.ofNat 74 x), bytes.drop commandBytes)
    else .error .bitsBeyondCommand

/-- The instruction the decoder reads from an instruction of `nbits` bits whose bits are `w`, bit 0 the least
significant (rule R56 numbers the flat word the same way); every bit above `nbits` is 0. -/
def decodeTableWord (nbits w : Nat) : Option Instr :=
  let x := w % 2 ^ nbits
  if x < 2 ^ 80 then
    match decodeBytes (bytesOfNumber commandBytes x) with
    | .ok (i, _) => some i
    | .error _ => none
  else none

/-- The encoder: the flat word of a command, `buf_len` highest, `op` lowest (rule R56). -/
def encode (i : Instr) : CmdWord := i.bufLen ++ i.count ++ i.bitWidth ++ i.opCode

/-- The record of rule R55 of a command, as plain numbers. -/
def Instr.raw (i : Instr) : RawCommand :=
  { op := i.opCode.toNat, bitWidth := i.bitWidth.toNat, count := i.count.toNat, bufLen := i.bufLen.toNat }

/-- The command of a record: the four fields at their widths (rules R55, R57). -/
def RawCommand.command (c : RawCommand) : Instr :=
  Instr.ofFields (BitVec.ofNat 2 c.op) (BitVec.ofNat 8 c.bitWidth) (BitVec.ofNat 32 c.count) (BitVec.ofNat 32 c.bufLen)

/-- The command fields of an assembler line (the table of rule R60).  The two pseudo-instructions stand for the length
`ceil(w·n/8)`. -/
def AsmLine.record : AsmLine → RawCommand
  | .size w n => { op := 0, bitWidth := w, count := n, bufLen := 0 }
  | .pack w n len => { op := 1, bitWidth := w, count := n, bufLen := len }
  | .unpack w n len => { op := 2, bitWidth := w, count := n, bufLen := len }
  | .packExact w n => { op := 1, bitWidth := w, count := n, bufLen := (w * n + 7) / 8 }
  | .unpackExact w n => { op := 2, bitWidth := w, count := n, bufLen := (w * n + 7) / 8 }
  | .cmd op w n len => { op := op, bitWidth := w, count := n, bufLen := len }

/-- The command word of an assembler line, where its fields fit their widths. -/
def assemble (line : AsmLine) : Option CmdWord :=
  if line.record.wf then some (encode line.record.command) else none

end Sys2Proof
end

