-- ==== Sys2Proof/Machine/Operands.lean ====
section
/-! DEFINITION. The operand arithmetic of the block: the size formula (rule R70), and the byte indexes, shifts and masks
that take a field from the cursor to bytes and back (rules R54, R83 to R86, R102 to R104). -/

namespace Sys2Proof.Machine

/-- `bytes_needed(w, n) = (w·n + 7) >> 3`, on the exact product (rules R70, R71). -/
def bytesNeeded (w n : Nat) : Nat := (w * n + 7) / 8

/-- `mask(w) = (1 << w) - 1` (rule R8). -/
def mask (w : Nat) : Nat := 2 ^ w - 1

/-- `byte_index = bit_pos / 8` (rule R54). -/
def byteIndex (bitPos : Nat) : Nat := bitPos / 8

/-- `offset_index = bit_pos mod 8`, 0 = most significant (rule R54). -/
def offsetIndex (bitPos : Nat) : Nat := bitPos % 8

/-- The fit condition `offset_index + w ≤ 8` (rule R54): it depends on the cursor and the width alone (rule R22). -/
abbrev fits (bitPos w : Nat) : Prop := offsetIndex bitPos + w ≤ 8

/-- The fit shift `sh = 8 - offset_index - w` (rules R54, R84). -/
def fitShift (bitPos w : Nat) : Nat := 8 - offsetIndex bitPos - w

/-- `spillage = offset_index + w - 8` (rules R54, R86). -/
def spillage (bitPos w : Nat) : Nat := offsetIndex bitPos + w - 8

/-- `masked = v & mask(w)`: applied to the whole value word, before any shift (rule R83). -/
def masked (v : Value) (w : Nat) : Byte := (v &&& BitVec.ofNat 32 (mask w)).setWidth 8

/-- What PACK ORs into `BUF[byte_index]`: `masked << sh` in the fit case (rule R84), `masked >> spillage` in the spill
case (rule R86). -/
def firstOperand (v : Value) (bitPos w : Nat) : Byte :=
  if fits bitPos w then masked v w <<< fitShift bitPos w else masked v w >>> spillage bitPos w

/-- What PACK ORs into `BUF[byte_index + 1]` in the spill case: `(masked & mask(spillage)) << (8 - spillage)`
(rule R86). -/
def secondOperand (v : Value) (bitPos w : Nat) : Byte :=
  (masked v w &&& BitVec.ofNat 8 (mask (spillage bitPos w))) <<< (8 - spillage bitPos w)

/-- UNPACK, fit case: `(b >> (8 - offset_index - w)) & mask(w)` (rule R103). -/
def fitValue (b : Byte) (bitPos w : Nat) : Byte := (b >>> fitShift bitPos w) &&& BitVec.ofNat 8 (mask w)

/-- UNPACK, spill case, high part: `(b0 << spillage) & mask(w)`, the shift at 16 bits, no less than 15
(rules R104, R110). -/
def highPart (b0 : Byte) (bitPos w : Nat) : Byte :=
  (((b0.setWidth 16) <<< spillage bitPos w) &&& BitVec.ofNat 16 (mask w)).setWidth 8

/-- UNPACK, spill case, low part: `(b1 >> (8 - spillage)) & mask(w)` (rule R104). -/
def lowPart (b1 : Byte) (bitPos w : Nat) : Byte := (b1 >>> (8 - spillage bitPos w)) &&& BitVec.ofNat 8 (mask w)

/-- UNPACK, spill case: `hi | lo` (rule R104). -/
def spillValue (b0 b1 : Byte) (bitPos w : Nat) : Byte := highPart b0 bitPos w ||| lowPart b1 bitPos w

/-- `zext_VW(val)` (rule R106). -/
def extendValue (val : Byte) : Value := val.setWidth 32

/-- `zext_RW(info)` (rule R148).  No value the block reports exceeds `RW` bits (rule R73). -/
def resultOf (info : Nat) : ResultWord := BitVec.ofNat 40 info

end Sys2Proof.Machine
end

