-- ==== Sys2Proof/Machine/State.lean ====
section
/-! DEFINITION. The state of the machine, as plain data: the block's activity and its six latched registers (rules R10,
R12), the three memories (rules R20, R30), the response event (rule R17), and the host, the second agent (rule R10), as
the list of its pending moves. -/

namespace Sys2Proof.Machine

/-- The contents of one memory space: (index, cell) pairs.  Canonical form (`Memory.wf`): indexes strictly rising, below
the space's capacity, and no entry equal to what an unlisted index reads as.  For BUF this is a list of `Host.Cell`. -/
abbrev Memory (α : Type) := List (Nat × α)

/-- The five values of a response's `status` (rule R140); codes 5, 6 and 7 do not exist (U9). -/
inductive Status where
  | ok
  | invalidBitWidth
  | bufferTooSmall
  | valueOutOfRange
  | illegalCommand
  deriving DecidableEq, Repr

/-- The response that ends an operation (rules R17, R59): an event with two fields. -/
structure Response where
  status : Status
  result : ResultWord
  deriving DecidableEq, Repr

/-- Where a busy block stands between two memory accesses (rules R38, R184): which access it performs next, with the
cells already read in the current element step. -/
inductive Point where
  /-- The command has been accepted; dispatch on `OP` and validation come next; no memory access (rules R22, R81). -/
  | check
  /-- The strict pre-scan is about to read `SRC:k` (rule R82). -/
  | scan (k : Nat)
  /-- Head of PACK's element loop: respond, or read `SRC:I`. -/
  | packSource
  /-- PACK holds the value `v` and is about to read `BUF:byte_index`. -/
  | packFirstRead (v : Value)
  /-- PACK has read `b` there and is about to write `BUF:byte_index`. -/
  | packFirstWrite (v : Value) (b : Byte)
  /-- Spill case: PACK is about to read `BUF:byte_index+1`. -/
  | packSecondRead (v : Value)
  /-- Spill case: PACK has read `b` there and is about to write `BUF:byte_index+1`. -/
  | packSecondWrite (v : Value) (b : Byte)
  /-- Head of UNPACK's element loop: respond, or read `BUF:byte_index`. -/
  | unpackRead
  /-- Spill case: UNPACK holds the first byte and is about to read `BUF:byte_index+1`. -/
  | unpackSecondRead (b0 : Byte)
  /-- UNPACK holds the extracted value and is about to write `DST:I`. -/
  | unpackWrite (val : Byte)
  deriving DecidableEq, Repr

/-- The block is idle, or busy with exactly one operation (rule R10). -/
inductive Activity where
  | idle
  | busy (point : Point)
  deriving DecidableEq, Repr

/-- One move of the host, the second agent.  It owns the memories (rule R20), issues commands when the block is idle
(rule R180) and may assert reset (rules R157, R170, R172). -/
inductive HostMove where
  /-- The host writes a word of SRC (`.src`, rule R60; rule R174 step 3). -/
  | writeSrc (index : CountOperand) (v : Value)
  /-- The host writes a byte of BUF (`.buf`, `.zero`, rule R60; rule R174 step 4). -/
  | writeBuf (index : CountOperand) (b : Byte)
  /-- The host writes a word of DST, which it owns as well (rule R20). -/
  | writeDst (index : CountOperand) (v : Value)
  /-- The host presents a command word and keeps rule R179 until the response. -/
  | issue (word : CmdWord)
  /-- The host presents a command word and asserts reset after `k` transitions of the block (rule R172). -/
  | issueThenReset (word : CmdWord) (k : Nat)
  /-- The host asserts reset between operations (rule R170). -/
  | reset
  deriving DecidableEq, Repr

/-- The whole machine. -/
structure State where
  /-- The static parameters of rule R6: carried, read, never written. -/
  params : Config.Params
  /-- Idle or busy (rule R10). -/
  activity : Activity
  /-- `x[0]`, `OP`, 2 bits (rule R12). -/
  op : BitVec 2
  /-- `x[1]`, `W`, 8 bits (rule R12). -/
  w : WidthOperand
  /-- `x[2]`, `N`, 32 bits (rule R12). -/
  n : CountOperand
  /-- `x[3]`, `LEN`, 32 bits (rule R12). -/
  len : CountOperand
  /-- `x[4]`, `I`, 32 bits (rule R12). -/
  i : CountOperand
  /-- `x[5]`, `BITPOS`, 35 bits (rules R12, R14). -/
  bitpos : BitPosition
  /-- SRC, the input sequence (rules R30, R32). -/
  src : Memory Value
  /-- BUF, the packed buffer (rules R30, R31). -/
  buf : Memory Byte
  /-- DST, the output sequence (rules R30, R33). -/
  dst : Memory Value
  /-- The response delivered by the last step, if it delivered one: an event, which the next step takes away
  (rule R17). -/
  response : Option Response
  /-- The host's pending moves, the next one first. -/
  agenda : List HostMove
  /-- The host asserts reset after this many further transitions of the block (rule R172), if it has decided to. -/
  resetIn : Option Nat
  deriving DecidableEq, Repr

/-- The machine right after reset and power-up (rules R21, R170, R171): idle, no response pending, nothing issued.  The
spec leaves the latched registers and the memories unspecified: zero and nothing listed (DESIGN CHOICE, log entries 2
and 1), the parameters at rule R6's defaults. -/
def State.reset : State where
  params := Config.Params.default
  activity := .idle
  op := 0
  w := 0
  n := 0
  len := 0
  i := 0
  bitpos := 0
  src := []
  buf := []
  dst := []
  response := none
  agenda := []
  resetIn := none

/-- Why a step stops. -/
inductive Fault where
  /-- An access to an index at or above the space's capacity: no such cell exists (rules R6, R30, R47).  Raised by the
  checked accesses of Ops.lean, on behalf of the block or of a host move.  Safe.  No command reaches it. -/
  | noSuchCell
  deriving DecidableEq, Repr

/-- Why a command has no meaning. -/
inductive Refusal where
  /-- The instruction has no meaning in this model yet.  Raised in Dispatch.lean only.  Safe. -/
  | notModelled (mnemonic : String)
  /-- A PACK or UNPACK that passes the block's own checks offers memory that does not exist: `buf_len > BUF_CAP` or
  `count > VAL_CAP`.  The spec gives it no meaning (rule R181, U7).  It cannot arise with the default capacities.
  Raised by `validated` and `tick`.  Safe. -/
  | beyondCapacity
  deriving DecidableEq, Repr

end Sys2Proof.Machine
end

