-- ==== Sys2Proof/Machine/Flags.lean ====
section
/-! DEFINITION. The block has no flags (rule R16); what takes their place is the status of a response.  Here: the
numeric codes of rule R140 and the operand checks that decide between them, in the order of rule R146. -/

namespace Sys2Proof.Machine

/-- The 3-bit code of a status (rule R140). -/
def Status.code : Status → BitVec 3
  | .ok => 0#3
  | .invalidBitWidth => 1#3
  | .bufferTooSmall => 2#3
  | .valueOutOfRange => 3#3
  | .illegalCommand => 4#3

/-- `1 ≤ W ≤ 8` (rules R5, R141). -/
abbrev widthValid (w : Nat) : Prop := 1 ≤ w ∧ w ≤ 8

/-- The two operand checks of PACK and UNPACK, in their order: width first, then length (rules R81, R101, R146). -/
def operandError (w n len : Nat) : Option Status :=
  if w < 1 ∨ 8 < w then some .invalidBitWidth
  else if len < bytesNeeded w n then some .bufferTooSmall
  else none

/-- A value that strict mode rejects: `v > mask(w)`, compared on the full value word (rule R82). -/
abbrev outOfRange (v : Value) (w : Nat) : Prop := mask w < v.toNat

end Sys2Proof.Machine
end

