-- ==== Sys2Proof/Machine/Ops.lean ====
section
/-! DEFINITION. The named operations over memory and registers: reading and writing one cell (rules R30, R38, R43),
accepting a command (rule R13), moving the cursor (rules R14, R87), delivering a response, raising an error (rule R148)
and reset (rules R170 to R173). -/

namespace Sys2Proof.Machine

/-! ### A memory space -/

/-- The cell at an index: the listed one, or what an unlisted cell reads as. -/
def Memory.read {α : Type} (unwritten : α) : Memory α → Nat → α
  | [], _ => unwritten
  | (a, x) :: rest, k => if a = k then x else Memory.read unwritten rest k

/-- The memory with index `k` unlisted. -/
def Memory.erase {α : Type} (m : Memory α) (k : Nat) : Memory α := m.filter (fun c => c.1 != k)

/-- The memory with index `k` listed as `v`, in its place in the rising order. -/
def Memory.insert {α : Type} : Memory α → Nat → α → Memory α
  | [], k, v => [(k, v)]
  | (a, x) :: rest, k, v =>
    if k < a then (k, v) :: (a, x) :: rest
    else if k = a then (k, v) :: rest
    else (a, x) :: Memory.insert rest k v

/-- A write of one cell.  Writing what an unlisted cell reads as unlists the cell, so that equal memories are equal
lists. -/
def Memory.write {α : Type} [DecidableEq α] (unwritten : α) (m : Memory α) (k : Nat) (v : α) : Memory α :=
  if v = unwritten then m.erase k else m.insert k v

/-- The canonical form from index `lo` up: indexes strictly rising, below `cap`, no cell equal to an unlisted one. -/
def Memory.wfFrom {α : Type} [DecidableEq α] (unwritten : α) (cap : Nat) : Nat → Memory α → Bool
  | _, [] => true
  | lo, (a, x) :: rest =>
    decide (lo ≤ a) && decide (a < cap) && decide (x ≠ unwritten) && Memory.wfFrom unwritten cap (a + 1) rest

/-- The canonical form of a memory of `cap` cells. -/
def Memory.wf {α : Type} [DecidableEq α] (unwritten : α) (cap : Nat) (m : Memory α) : Bool :=
  Memory.wfFrom unwritten cap 0 m

/-! ### The three spaces -/

/-- `SRC[k]`. -/
def State.srcWord (s : State) (k : Nat) : Value := s.src.read Config.unwrittenValue k
/-- `BUF[k]`. -/
def State.bufByte (s : State) (k : Nat) : Byte := s.buf.read Config.unwrittenByte k
/-- `DST[k]`. -/
def State.dstWord (s : State) (k : Nat) : Value := s.dst.read Config.unwrittenValue k

/-- The bit of BUF at virtual bit position `p`: stream bit `p mod 8` of byte `p / 8`, that is numeric bit
`7 - (p mod 8)` of it (rules R7, R34, R51). -/
def State.bufBit (s : State) (p : Nat) : Bool := (s.bufByte (p / 8)).getLsbD (7 - p % 8)

/-- What an operation on cells answers: a value, or the reason it stops. -/
abbrev Result (α : Type) := Host.Outcome α Fault Refusal

/-- One thing after another; a stop ends the sequence. -/
def andThen {α β : Type} (o : Result α) (f : α → Result β) : Result β :=
  match o with
  | .next a => f a
  | .fault e => .fault e
  | .refused e => .refused e

/-- `MemRead(SRC:k, 1)` (rule R8). -/
def readSrc (s : State) (k : Nat) : Result Value :=
  if k < s.params.valCap then .next (s.srcWord k) else .fault .noSuchCell

/-- `MemRead(BUF:k, 1)` (rule R8). -/
def readBuf (s : State) (k : Nat) : Result Byte :=
  if k < s.params.bufCap then .next (s.bufByte k) else .fault .noSuchCell

/-- `MemWrite(BUF:k, 1, b)` (rule R8). -/
def writeBuf (s : State) (k : Nat) (b : Byte) : Result State :=
  if k < s.params.bufCap then .next { s with buf := s.buf.write Config.unwrittenByte k b } else .fault .noSuchCell

/-- `MemWrite(DST:k, 1, v)` (rule R8). -/
def writeDst (s : State) (k : Nat) (v : Value) : Result State :=
  if k < s.params.valCap then .next { s with dst := s.dst.write Config.unwrittenValue k v } else .fault .noSuchCell

/-- The host writes `SRC[k]`; the block never does (rule R32). -/
def writeSrc (s : State) (k : Nat) (v : Value) : Result State :=
  if k < s.params.valCap then .next { s with src := s.src.write Config.unwrittenValue k v } else .fault .noSuchCell

/-- PACK's read-modify-write of one byte: `MemWrite(BUF:k, 1, MemRead(BUF:k, 1) | x)`, performed even when `x = 0`
(rule R39). -/
def orBuf (s : State) (k : Nat) (x : Byte) : Result State :=
  andThen (readBuf s k) fun b => writeBuf s k (b ||| x)

/-! ### Command acceptance, the cursor, the response -/

/-- Accepting a command: `OP`, `W`, `N`, `LEN` take the command's fields and the block is busy (rules R10, R13).  The
host has taken the response of the operation before. -/
def accept (c : Instr) (s : State) : State :=
  { s with
    op := c.opCode, w := c.bitWidth, n := c.count, len := c.bufLen,
    activity := .busy .check, response := none }

/-- `B = bytes_needed(W, N)` of the operation in flight (rule R70). -/
def State.needed (s : State) : Nat := bytesNeeded s.w.toNat s.n.toNat

/-- `I <- 0 ; BITPOS <- 0` (rules R80, R100). -/
def startLoop (s : State) : State := { s with i := 0, bitpos := 0 }

/-- `BITPOS <- BITPOS + W ; I <- I + 1` (rules R87, R105). -/
def advance (s : State) : State := { s with bitpos := s.bitpos + s.w.setWidth 35, i := s.i + 1 }

/-- The end of an operation: one response is delivered and the block is idle (rules R10, R59).  The latched registers
keep what they hold; nothing reads them until they are written again (rule R12). -/
def deliver (st : Status) (info : Nat) (s : State) : State :=
  { s with activity := .idle, response := some { status := st, result := resultOf info } }

/-- `raise <Error>(info)`, the block's one way to take an exception (rule R148): no further access, the response with
the error's status, idle.  Nothing is saved and control goes nowhere, so there is no return from it: the next command is
simply accepted (rule R149). -/
def raise (st : Status) (info : Nat) (s : State) : State := deliver st info s

/-- `respond OK(res)` (rule R8). -/
def respondOk (res : Nat) (s : State) : State := deliver .ok res s

/-- The reset input is asserted: idle, the operation in flight abandoned without a response, memories untouched
(rules R170, R172, R173).  The latched registers, unspecified after reset, take the values of `State.reset`
(DESIGN CHOICE, log entry 2).  The parameters and the host's further moves are no state of the block. -/
def performReset (s : State) : State :=
  { s with
    activity := .idle, op := 0, w := 0, n := 0, len := 0, i := 0, bitpos := 0, response := none, resetIn := none }

/-! ### Validation and the element loop, shared by PACK and UNPACK -/

/-- The host's duty `buf_len ≤ BUF_CAP` and `count ≤ VAL_CAP` (rule R181). -/
abbrev State.offersExisting (s : State) : Prop :=
  s.len.toNat ≤ s.params.bufCap ∧ s.n.toNat ≤ s.params.valCap

/-- The validation of PACK and UNPACK, before any memory access (rules R81, R101): the block's own checks in their
order, each reporting `B`; then the host's duty that the block cannot check, which a model refuses (U7). -/
def validated (s : State) (body : State → Result State) : Result State :=
  match operandError s.w.toNat s.n.toNat s.len.toNat with
  | some e => .next (raise e s.needed s)
  | none => if s.offersExisting then body s else .refused .beyondCapacity

/-- Element steps one after another: the body of the element loop run `k` times (rules R22, R87, R105). -/
def elements (step : State → Result State) : Nat → State → Result State
  | 0, s => .next s
  | k + 1, s => andThen (step s) (elements step k)

/-- An element loop from `I = 0` to `N - 1` and the OK response after it (rules R87, R105). -/
def elementLoop (step : State → Result State) (s : State) : Result State :=
  andThen (elements step s.n.toNat (startLoop s)) fun s' => .next (respondOk s'.needed s')

end Sys2Proof.Machine
end

