-- ==== Sys2Proof/Machine/Pack.lean ====
section
/-! DEFINITION. PACK, the packer (rules R80 to R95). -/

namespace Sys2Proof.Machine

/-- One element step of PACK (rules R83 to R87): read `SRC[I]`, OR the field into one byte (fit) or two (spill, the
lower-indexed byte first), advance the cursor. -/
def packElement (s : State) : Result State :=
  andThen (readSrc s s.i.toNat) fun v =>
    let p := s.bitpos.toNat
    let w := s.w.toNat
    if fits p w then
      andThen (orBuf s (byteIndex p) (firstOperand v p w)) fun s1 => .next (advance s1)
    else
      andThen (orBuf s (byteIndex p) (firstOperand v p w)) fun s1 =>
        andThen (orBuf s1 (byteIndex p + 1) (secondOperand v p w)) fun s2 => .next (advance s2)

/-- The strict pre-scan (rule R82): the first `k` of the next `count` indexes with `SRC[k]` out of range, if there is
one.  It reads SRC only and stops at the first hit. -/
def scan (s : State) : (count k : Nat) → Result (Option Nat)
  | 0, _ => .next none
  | count + 1, k =>
    andThen (readSrc s k) fun v => if outOfRange v s.w.toNat then .next (some k) else scan s count (k + 1)

/-- The pre-scan where `STRICT = true`, nothing otherwise (rules R80, R82). -/
def strictScan (s : State) : Result (Option Nat) := if s.params.strict then scan s s.n.toNat 0 else .next none

/-- `PACK w, n, len` as one transition (rules R80, R184): validation, the pre-scan in strict mode, the element loop, the
response. -/
def execPack (bitWidth : WidthOperand) (count bufLen : CountOperand) (s : State) : Result State :=
  validated (accept (.pack bitWidth count bufLen) s) fun s =>
    andThen (strictScan s) fun hit =>
      match hit with
      | some k => .next (raise .valueOutOfRange k s)
      | none => elementLoop packElement s

end Sys2Proof.Machine
end

