-- ==== Sys2Proof/Machine/Access.lean ====
section
/-! DEFINITION. The finest granularity of rule R184: a busy block advanced by one transition, which performs at most one
memory access, in the order of rule R38.  A reset that lands inside an operation (rule R172) sees these states. -/

namespace Sys2Proof.Machine

/-- The block is busy and stands at `p`. -/
def State.goto (s : State) (p : Point) : State := { s with activity := .busy p }

/-- The block enters the element loop of PACK: cursor at 0 (rule R80). -/
def enterPackLoop (s : State) : State := (startLoop s).goto .packSource

/-- The first transition after acceptance: dispatch on `OP` (rule R22 (a)) and the validation exits (rule R22 (b)).  No
memory is accessed. -/
def tickCheck (s : State) : Result State :=
  if s.op = 0#2 then .next (respondOk s.needed s)
  else if s.op = 1#2 then
    validated s fun s => .next (if s.params.strict then s.goto (.scan 0) else enterPackLoop s)
  else if s.op = 2#2 then validated s fun s => .next ((startLoop s).goto .unpackRead)
  else .next (raise .illegalCommand 0 s)

/-- One read of the strict pre-scan, or its end (rule R82). -/
def tickScan (s : State) (k : Nat) : Result State :=
  if k < s.n.toNat then
    andThen (readSrc s k) fun v =>
      .next (if outOfRange v s.w.toNat then raise .valueOutOfRange k s else s.goto (.scan (k + 1)))
  else .next (enterPackLoop s)

/-- One transition of a busy block that stands at a given point (rules R38, R184). -/
def tick (point : Point) (s : State) : Result State :=
  let p := s.bitpos.toNat
  let w := s.w.toNat
  match point with
  | .check => tickCheck s
  | .scan k => tickScan s k
  | .packSource =>
    if s.i.toNat < s.n.toNat then andThen (readSrc s s.i.toNat) fun v => .next (s.goto (.packFirstRead v))
    else .next (respondOk s.needed s)
  | .packFirstRead v => andThen (readBuf s (byteIndex p)) fun b => .next (s.goto (.packFirstWrite v b))
  | .packFirstWrite v b =>
    andThen (writeBuf s (byteIndex p) (b ||| firstOperand v p w)) fun s1 =>
      .next (if fits p w then (advance s1).goto .packSource else s1.goto (.packSecondRead v))
  | .packSecondRead v => andThen (readBuf s (byteIndex p + 1)) fun b => .next (s.goto (.packSecondWrite v b))
  | .packSecondWrite v b =>
    andThen (writeBuf s (byteIndex p + 1) (b ||| secondOperand v p w)) fun s1 =>
      .next ((advance s1).goto .packSource)
  | .unpackRead =>
    if s.i.toNat < s.n.toNat then
      andThen (readBuf s (byteIndex p)) fun b =>
        .next (s.goto (if fits p w then .unpackWrite (fitValue b p w) else .unpackSecondRead b))
    else .next (respondOk s.needed s)
  | .unpackSecondRead b0 =>
    andThen (readBuf s (byteIndex p + 1)) fun b1 => .next (s.goto (.unpackWrite (spillValue b0 b1 p w)))
  | .unpackWrite val =>
    andThen (writeDst s s.i.toNat (extendValue val)) fun s1 => .next ((advance s1).goto .unpackRead)

/-- Up to `k` transitions of the block: fewer only where it becomes idle first. -/
def ticks : Nat → State → Result State
  | 0, s => .next s
  | k + 1, s =>
    match s.activity with
    | .idle => .next s
    | .busy point => andThen (tick point s) (ticks k)

end Sys2Proof.Machine
end

