-- ==== Sys2Proof/Machine/Reserved.lean ====
section
/-! DEFINITION. The reserved operation code (rules R58, R144). -/

namespace Sys2Proof.Machine

/-- `op = 0b11`: accepted, no memory access, answered with IllegalCommand and 0 (rule R144). -/
def execReserved (bitWidth : WidthOperand) (count bufLen : CountOperand) (s : State) : Result State :=
  .next (raise .illegalCommand 0 (accept (.reserved bitWidth count bufLen) s))

end Sys2Proof.Machine
end

