-- ==== Sys2Proof/Machine/Size.lean ====
section
/-! DEFINITION. SIZE, the size calculator (rules R70 to R75). -/

namespace Sys2Proof.Machine

/-- `SIZE w, n` (rule R70): respond OK with `bytes_needed(W, N)`.  Total; no memory access; `LEN` is latched and
ignored (rule R74). -/
def execSize (bitWidth : WidthOperand) (count bufLen : CountOperand) (s : State) : Result State :=
  let s := accept (.size bitWidth count bufLen) s
  .next (respondOk s.needed s)

end Sys2Proof.Machine
end

