-- ==== Sys2Proof/Machine/Unpack.lean ====
section
/-! DEFINITION. UNPACK, the unpacker (rules R100 to R112). -/

namespace Sys2Proof.Machine

/-- One element step of UNPACK (rules R102 to R106): read one byte (fit) or two (spill, the lower-indexed byte first),
extract the field, write it zero-extended to `DST[I]`, advance the cursor. -/
def unpackElement (s : State) : Result State :=
  let p := s.bitpos.toNat
  let w := s.w.toNat
  if fits p w then
    andThen (readBuf s (byteIndex p)) fun b =>
      andThen (writeDst s s.i.toNat (extendValue (fitValue b p w))) fun s1 => .next (advance s1)
  else
    andThen (readBuf s (byteIndex p)) fun b0 =>
      andThen (readBuf s (byteIndex p + 1)) fun b1 =>
        andThen (writeDst s s.i.toNat (extendValue (spillValue b0 b1 p w))) fun s1 => .next (advance s1)

/-- `UNPACK w, n, len` as one transition (rules R100, R184): validation, the element loop, the response.  It never
raises ValueOutOfRange (rule R143). -/
def execUnpack (bitWidth : WidthOperand) (count bufLen : CountOperand) (s : State) : Result State :=
  validated (accept (.unpack bitWidth count bufLen) s) fun s => elementLoop unpackElement s

end Sys2Proof.Machine
end

