-- ==== Sys2Proof/Machine/Dispatch.lean ====
section
/-! DEFINITION. The dispatch on the operation (rules R22, R57): one arm per command, each one whole operation from
command acceptance to response. -/

namespace Sys2Proof.Machine

def exec (i : Instr) (s : State) : Host.Outcome State Fault Refusal :=
  match i with
  | .size bitWidth count bufLen => Sys2Proof.Machine.execSize bitWidth count bufLen s
  | .pack bitWidth count bufLen => Sys2Proof.Machine.execPack bitWidth count bufLen s
  | .unpack bitWidth count bufLen => Sys2Proof.Machine.execUnpack bitWidth count bufLen s
  | .reserved bitWidth count bufLen => Sys2Proof.Machine.execReserved bitWidth count bufLen s

end Sys2Proof.Machine
end

