-- ==== Sys2Proof/Machine/HostAgent.lean ====
section
/-! DEFINITION. The host, the second agent (rule R10), and one transition of the whole machine while no reset is due:
a busy block goes on by one access; beside an idle block the host makes its next move (rules R157, R174, R180). -/

namespace Sys2Proof.Machine

/-- One move of the host beside an idle block.  A command whose operation nothing else can see runs as one atomic
transition; one that a reset is going to cut short is accepted and then runs access by access (rule R184). -/
def hostMove (m : HostMove) (s : State) : Result State :=
  match m with
  | .writeSrc index v => writeSrc s index.toNat v
  | .writeBuf index b => writeBuf s index.toNat b
  | .writeDst index v => writeDst s index.toNat v
  | .issue word => exec (decode word) s
  | .issueThenReset word k => .next { accept (decode word) s with resetIn := some k }
  | .reset => .next (performReset s)

/-- The host has taken the response of the step before (rule R17: the block does not retain it). -/
def takeResponse (s : State) : State := { s with response := none }

/-- What happens beside an idle block: the host's next move, or nothing. -/
def idleStep (s : State) : Result State :=
  match s.agenda with
  | [] => .next (takeResponse s)
  | m :: rest => hostMove m { takeResponse s with agenda := rest }

/-- One transition while no reset is due now: a busy block performs its next access and takes no notice of the host
(rules R13, R180); an idle block waits for the host. -/
def liveStep (s : State) : Result State :=
  match s.activity with
  | .busy point => tick point s
  | .idle => idleStep s

/-- One transition with a reset `k` transitions away: the block goes on; a host beside an idle block only waits for its
reset. -/
def countdownStep (s : State) (k : Nat) : Result State :=
  match s.activity with
  | .busy point => tick point { s with resetIn := some k }
  | .idle => .next { takeResponse s with resetIn := some k }

/-- One transition of the machine (rules R170, R172, R184). -/
def machineStep (s : State) : Result State :=
  match s.resetIn with
  | some 0 => .next (performReset s)
  | some (k + 1) => countdownStep s k
  | none => liveStep s

/-- The machine with a command word presented on the command port of an idle block, so that its next transition accepts
and runs exactly that command: idle, no reset under way, the command the host's next move. -/
def presentWord (s : State) (word : CmdWord) : State :=
  { s with activity := .idle, resetIn := none, agenda := .issue word :: s.agenda }

end Sys2Proof.Machine
end

