-- ==== Sys2Proof/Machine/Step.lean ====
section
/-! DEFINITION. The step function.  The block has no program counter and fetches nothing (rules R14, R46): the next
command is the one the host presents. -/

namespace Sys2Proof.Machine

/-- One step of the machine. -/
def step (s : State) : Host.Outcome State Fault Refusal := machineStep s

/-- The state with the command of `nbits` bits `w` presented on the command port of the idle block (rules R55, R56). -/
def State.withFetchWord (s : State) (nbits w : Nat) : State := presentWord s (BitVec.ofNat 74 (w % 2 ^ nbits))

end Sys2Proof.Machine
end

