-- ==== Sys2Proof/Safety.lean ====
section
/-! DEFINITION. What claims call a safe outcome, and the machine's invariant: the memories in canonical form, the cursor
at `BITPOS = I·W` (rule R15), and a busy block standing only where the operation it holds can stand. -/

namespace Sys2Proof.Machine

/-- No access outside the memory that exists (rules R41, R126). -/
def NoFault {α : Type} (o : Result α) : Prop := ∀ f, o ≠ .fault f

/-! ### The terms of claims about one command -/

/-- The state in which command `c` has ended with one response, `OP`, `W`, `N`, `LEN` hold its fields, and nothing else
has changed (rules R10, R13, R59). -/
def State.answer (s : State) (c : Instr) (st : Status) (result : Nat) : State :=
  { s with
    op := c.opCode, w := c.bitWidth, n := c.count, len := c.bufLen,
    activity := .idle, response := some { status := st, result := BitVec.ofNat 40 result } }

/-- A PACK or UNPACK with these operands passes the two operand checks (rules R81, R101) and keeps the host's capacity
duty (rule R181). -/
def State.accepts (s : State) (w : WidthOperand) (n len : CountOperand) : Prop :=
  widthValid w.toNat ∧ bytesNeeded w.toNat n.toNat ≤ len.toNat ∧
    len.toNat ≤ s.params.bufCap ∧ n.toNat ≤ s.params.valCap

/-- Every value of `SRC[0..n-1]` fits in `w` bits (rules R9, R182). -/
def State.valuesFit (s : State) (w n : Nat) : Prop := ∀ j < n, (s.srcWord j).toNat ≤ 2 ^ w - 1

/-- Where STRICT is set, the values fit: what PACK asks of its input in either mode (rules R82, R143). -/
def State.valuesAccepted (s : State) (w n : Nat) : Prop := s.params.strict = true → s.valuesFit w n

/-- Two outcomes of a command that a host cannot tell apart: the same response and the same memories (rule R11). -/
def SameOutcome (t u : State) : Prop := t.response = u.response ∧ t.src = u.src ∧ t.buf = u.buf ∧ t.dst = u.dst

/-- What asserting reset makes of a state (rules R170, R171, R172, R173): idle, no response pending, no reset under way,
memories and parameters untouched, and the next command handled like any other. -/
def ResetLeaves (s t : State) : Prop :=
  t.activity = .idle ∧ t.response = none ∧ t.resetIn = none ∧ t.src = s.src ∧ t.buf = s.buf ∧ t.dst = s.dst ∧
    t.params = s.params ∧ ∀ (c : Instr) (u : State), exec c s = .next u → ∃ v, exec c t = .next v ∧ SameOutcome v u

/-! ### How far a PACK has come (rule R172) -/

/-- The point belongs to PACK's element loop. -/
def Point.inPackLoop : Point → Bool
  | .check => false
  | .scan _ => false
  | .packSource => true
  | .packFirstRead _ => true
  | .packFirstWrite _ _ => true
  | .packSecondRead _ => true
  | .packSecondWrite _ _ => true
  | .unpackRead => false
  | .unpackSecondRead _ => false
  | .unpackWrite _ => false

/-- The point lies between the two byte writes of PACK's spill step (rules R38, R86). -/
def Point.firstByteWritten : Point → Bool
  | .check => false
  | .scan _ => false
  | .packSource => false
  | .packFirstRead _ => false
  | .packFirstWrite _ _ => false
  | .packSecondRead _ => true
  | .packSecondWrite _ _ => true
  | .unpackRead => false
  | .unpackSecondRead _ => false
  | .unpackWrite _ => false

/-- Whether PACK, standing at a point, has ORed in bit `b` (from the most significant) of field `j`: the elements
`0 .. I-1` are complete, and between the two byte writes of a spill step the bits of element `I` that lie in the
lower-indexed byte are done (rule R172). -/
def State.fieldBitDone (s : State) (point : Point) (j b : Nat) : Bool :=
  decide (j < s.i.toNat) || (decide (j = s.i.toNat) && point.firstByteWritten &&
    decide ((j * s.w.toNat + b) / 8 = byteIndex (s.i.toNat * s.w.toNat)))

/-! ### The invariant -/

/-- Every memory is in canonical form. -/
def State.memWf (s : State) : Bool :=
  s.src.wf Config.unwrittenValue s.params.valCap && s.buf.wf Config.unwrittenByte s.params.bufCap &&
    s.dst.wf Config.unwrittenValue s.params.valCap

/-- The latched operands have passed validation and the host's capacity duty (rules R81, R101, R181). -/
def State.operandsOk (s : State) : Bool :=
  decide (widthValid s.w.toNat) && decide (s.needed ≤ s.len.toNat) && decide s.offersExisting

/-- The cursor of an element loop (rule R15): `I ≤ N` and `BITPOS = I·W`. -/
def State.cursorOk (s : State) : Bool :=
  decide (s.i.toNat ≤ s.n.toNat) && decide (s.bitpos.toNat = s.i.toNat * s.w.toNat)

/-- The cursor stands at an element that exists. -/
def State.inElement (s : State) : Bool := s.cursorOk && decide (s.i.toNat < s.n.toNat)

/-- The current element spills (rule R54). -/
def State.spills (s : State) : Bool := decide (¬ fits s.bitpos.toNat s.w.toNat)

/-- What holds of the latched registers when a busy block stands at a point (rules R15, R22). -/
def State.pointOk (s : State) : Point → Bool
  | .check => true
  | .scan k => decide (s.op = 1#2) && s.operandsOk && s.params.strict && decide (k ≤ s.n.toNat)
  | .packSource => decide (s.op = 1#2) && s.operandsOk && s.cursorOk
  | .packFirstRead _ => decide (s.op = 1#2) && s.operandsOk && s.inElement
  | .packFirstWrite _ _ => decide (s.op = 1#2) && s.operandsOk && s.inElement
  | .packSecondRead _ => decide (s.op = 1#2) && s.operandsOk && s.inElement && s.spills
  | .packSecondWrite _ _ => decide (s.op = 1#2) && s.operandsOk && s.inElement && s.spills
  | .unpackRead => decide (s.op = 2#2) && s.operandsOk && s.cursorOk
  | .unpackSecondRead _ => decide (s.op = 2#2) && s.operandsOk && s.inElement && s.spills
  | .unpackWrite val => decide (s.op = 2#2) && s.operandsOk && s.inElement && decide (val.toNat ≤ mask s.w.toNat)

/-- A busy block stands where its operation can stand and has delivered no response (rules R10, R59). -/
def State.activityOk (s : State) : Bool :=
  match s.activity with
  | .idle => true
  | .busy point => s.pointOk point && decide (s.response = none)

/-- The machine's invariant. -/
def State.Inv (s : State) : Bool := s.params.wf && s.memWf && s.activityOk

end Sys2Proof.Machine
end

