-- ==== Sys2Proof/Certificates/Slice0/Obligations.lean ====
section
/-! DEFINITION. The statements for the provers.  Each docstring names the rule of the spec it formalises. -/

open Sys2Proof Sys2Proof.Machine

/-! ### Encoding -/

/-- R56, R57 on the command words that 95_test_vectors.md section 3 writes out (P1, P2, P4), and the table form of one
of them (80 bits, least significant byte first: the model's byte layout, log entry 6). -/
def Obligations.SpecWordsDecode : Prop :=
  decode 0x000000000000000281C#74 = .size 7 10 0 ∧
  decode 0x000000024000000281D#74 = .pack 7 10 9 ∧
  decode 0x000000024000000281E#74 = .unpack 7 10 9 ∧
  decode 0x000000024000000281F#74 = .reserved 7 10 9 ∧
  decode 0x0000000100000002406#74 = .unpack 1 9 4 ∧
  decodeTableWord 80 0x000000024000000281D = some (.pack 7 10 9)

/-- Decode and encode agree for every command, with every operand at every value, on the word, on the ten bytes and on
the table's numbering.  The byte layout is the model's choice (log entry 6); rule R56 gives the word. -/
def Obligations.DecodeInvertsEncode : Prop :=
  ∀ i : Instr, decode (encode i) = i ∧
    decodeBytes (bytesOfNumber commandBytes (encode i).toNat) = .ok (i, []) ∧
    decodeTableWord 80 (encode i).toNat = some i

/-- R58 (d): the decoder is total, every command word has exactly one meaning; it is the encoding of it. -/
def Obligations.EveryWordEncodesOneCommand : Prop :=
  ∀ word : CmdWord, encode (decode word) = word ∧ ∀ i, encode i = word → i = decode word

/-- The layout table of R56 as one number: `op` at bit 0, `bit_width` at bit 2, `count` at bit 10, `buf_len` at
bit 42. -/
def Obligations.CommandWordLayout : Prop :=
  ∀ i : Instr, (encode i).toNat =
    i.opCode.toNat + 2 ^ 2 * i.bitWidth.toNat + 2 ^ 10 * i.count.toNat + 2 ^ 42 * i.bufLen.toNat

/-- R57 and the match/mask rows of R61: the two low bits of the word alone select the operation. -/
def Obligations.LowBitsSelectOperation : Prop :=
  ∀ word : CmdWord,
    (word.toNat % 4 = 0 → ∃ w n l, decode word = .size w n l) ∧
    (word.toNat % 4 = 1 → ∃ w n l, decode word = .pack w n l) ∧
    (word.toNat % 4 = 2 → ∃ w n l, decode word = .unpack w n l) ∧
    (word.toNat % 4 = 3 → ∃ w n l, decode word = .reserved w n l)

/-- The table of R60: what each assembler line whose fields fit their widths decodes to, pseudo-instructions included;
the raw command `.cmd op, w, n, len` is the command with these four fields, for each of the four codes. -/
def Obligations.AssemblerLinesDecode : Prop :=
  (∀ w n : Nat, w < 2 ^ 8 → n < 2 ^ 32 →
    (assemble (.size w n)).map decode = some (.size (BitVec.ofNat 8 w) (BitVec.ofNat 32 n) 0)) ∧
  (∀ w n len : Nat, w < 2 ^ 8 → n < 2 ^ 32 → len < 2 ^ 32 →
    (assemble (.pack w n len)).map decode =
      some (.pack (BitVec.ofNat 8 w) (BitVec.ofNat 32 n) (BitVec.ofNat 32 len)) ∧
    (assemble (.unpack w n len)).map decode =
      some (.unpack (BitVec.ofNat 8 w) (BitVec.ofNat 32 n) (BitVec.ofNat 32 len)) ∧
    (assemble (.cmd 0 w n len)).map decode =
      some (.size (BitVec.ofNat 8 w) (BitVec.ofNat 32 n) (BitVec.ofNat 32 len)) ∧
    (assemble (.cmd 1 w n len)).map decode =
      some (.pack (BitVec.ofNat 8 w) (BitVec.ofNat 32 n) (BitVec.ofNat 32 len)) ∧
    (assemble (.cmd 2 w n len)).map decode =
      some (.unpack (BitVec.ofNat 8 w) (BitVec.ofNat 32 n) (BitVec.ofNat 32 len)) ∧
    (assemble (.cmd 3 w n len)).map decode =
      some (.reserved (BitVec.ofNat 8 w) (BitVec.ofNat 32 n) (BitVec.ofNat 32 len))) ∧
  (∀ w n : Nat, bytesNeeded w n < 2 ^ 32 →
    assemble (.packExact w n) = assemble (.pack w n (bytesNeeded w n)) ∧
    assemble (.unpackExact w n) = assemble (.unpack w n (bytesNeeded w n)))

/-! ### SIZE -/

/-- R70, R74, R145: SIZE answers OK with `(W·N + 7) >> 3` for every operand and every state; it latches its fields and
changes nothing else. -/
def Obligations.SizeAnswersByteCount : Prop :=
  ∀ (w : WidthOperand) (n len : CountOperand) (s : State),
    exec (.size w n len) s = .next (s.answer (.size w n len) .ok ((w.toNat * n.toNat + 7) >>> 3))

/-- R71, R73: the result of SIZE is the exact ceiling of the untruncated product over 8, which is `(p + 7) >> 3` for every
product `p`; the product stays below `2^40` and the result is at most `2^37`; the largest command gives 136902082529; for
`w ≤ 8` the result is at most `n`. -/
def Obligations.SizeResultIsExactCeiling : Prop :=
  (∀ p : Nat, (p + 7) >>> 3 = p / 8 + (if p % 8 ≠ 0 then 1 else 0)) ∧
  (∀ (w : WidthOperand) (n len : CountOperand) (s : State), ∃ t r,
    exec (.size w n len) s = .next t ∧ t.response = some { status := .ok, result := r } ∧
    r.toNat = w.toNat * n.toNat / 8 + (if w.toNat * n.toNat % 8 ≠ 0 then 1 else 0) ∧
    w.toNat * n.toNat ≤ (2 ^ 8 - 1) * (2 ^ 32 - 1) ∧ w.toNat * n.toNat < 2 ^ 40 ∧ r.toNat ≤ 2 ^ 37 ∧ (w.toNat ≤ 8 → r.toNat ≤ n.toNat)) ∧
  ∀ (len : CountOperand) (s : State), ∃ t, exec (.size 255 4294967295 len) s = .next t ∧
    t.response = some { status := .ok, result := 136902082529 }

/-- R72: zero inputs yield 0. -/
def Obligations.SizeOfZeroIsZero : Prop :=
  ∀ (w : WidthOperand) (n len : CountOperand) (s : State), w = 0 ∨ n = 0 →
    exec (.size w n len) s = .next (s.answer (.size w n len) .ok 0)

/-- The rows of R75. -/
def Obligations.SizeCornerCases : Prop :=
  ∀ (s : State) (len : CountOperand),
    ∀ row ∈ ([(0, 0, 0), (0, 1000, 0), (5, 0, 0), (1, 1, 1), (1, 8, 1), (1, 9, 2), (3, 8, 3), (3, 35, 14), (7, 10, 9),
      (7, 8, 7), (8, 35, 35), (9, 1, 2), (16, 3, 6), (255, 4294967295, 136902082529)] : List (Nat × Nat × Nat)),
    exec (.size (BitVec.ofNat 8 row.1) (BitVec.ofNat 32 row.2.1) len) s =
      .next (s.answer (.size (BitVec.ofNat 8 row.1) (BitVec.ofNat 32 row.2.1) len) .ok row.2.2)

/-! ### Errors -/

/-- R58 (a), R144: the reserved code is accepted, accesses no memory and answers (IllegalCommand, 0), whatever its
operands. -/
def Obligations.ReservedAnswersIllegalCommand : Prop :=
  ∀ (w : WidthOperand) (n len : CountOperand) (s : State),
    exec (.reserved w n len) s = .next (s.answer (.reserved w n len) .illegalCommand 0)

/-- R141: PACK and UNPACK answer InvalidBitWidth for a width of 0 or above 8, whatever the buffer length, the values and
the memory; nothing is changed.  SIZE does not raise it.  That they answer so also where the command offers more than
`BUF_CAP` or `VAL_CAP`, which rule R181 puts outside the spec, is the model's choice (log entry 4). -/
def Obligations.InvalidWidthRejectedFirst : Prop :=
  ∀ (w : WidthOperand) (n len : CountOperand) (s : State), w.toNat < 1 ∨ 8 < w.toNat →
    exec (.pack w n len) s =
      .next (s.answer (.pack w n len) .invalidBitWidth (bytesNeeded w.toNat n.toNat)) ∧
    exec (.unpack w n len) s =
      .next (s.answer (.unpack w n len) .invalidBitWidth (bytesNeeded w.toNat n.toNat)) ∧
    exec (.size w n len) s = .next (s.answer (.size w n len) .ok (bytesNeeded w.toNat n.toNat))

/-- R142: where the width is valid PACK and UNPACK answer BufferTooSmall, with the length needed, exactly where the buffer
offered is shorter; nothing is changed.  A buffer of exactly that length, or longer, is never answered so.  That they
answer so also where the command offers more than `BUF_CAP` or `VAL_CAP`, which rule R181 puts outside the spec, is the
model's choice (log entry 4). -/
def Obligations.ShortBufferRejected : Prop :=
  ∀ (w : WidthOperand) (n len : CountOperand) (s : State), 1 ≤ w.toNat ∧ w.toNat ≤ 8 →
    (len.toNat < bytesNeeded w.toNat n.toNat →
      exec (.pack w n len) s = .next (s.answer (.pack w n len) .bufferTooSmall (bytesNeeded w.toNat n.toNat)) ∧
      exec (.unpack w n len) s = .next (s.answer (.unpack w n len) .bufferTooSmall (bytesNeeded w.toNat n.toNat))) ∧
    (bytesNeeded w.toNat n.toNat ≤ len.toNat → ∀ t r,
      exec (.pack w n len) s = .next t ∨ exec (.unpack w n len) s = .next t → t.response = some r →
      r.status ≠ .bufferTooSmall)

/-- R82, R143: with STRICT set, PACK answers ValueOutOfRange with the lowest index of a value above `2^w - 1`, compared
on the whole word, after the operand checks; nothing is changed. -/
def Obligations.StrictModeReportsLowestIndex : Prop :=
  ∀ (w : WidthOperand) (n len : CountOperand) (s : State) (j : Nat), s.accepts w n len → s.params.strict = true →
    j < n.toNat → 2 ^ w.toNat - 1 < (s.srcWord j).toNat → s.valuesFit w.toNat j →
    exec (.pack w n len) s = .next (s.answer (.pack w n len) .valueOutOfRange j)

/-- R59, R146: every command that is answered is answered once, with the status that the fixed order of the checks gives
and the result of R59's table, and leaves the block idle.  That an error is answered also where the command offers more
memory than exists, which rule R181 puts outside the spec, is the model's choice (log entry 4). -/
def Obligations.ResponseFollowsFixedOrder : Prop :=
  ∀ (c : Instr) (s t : State), exec c s = .next t → t.activity = .idle ∧ ∃ r, t.response = some r ∧
    let b := BitVec.ofNat 40 (bytesNeeded c.bitWidth.toNat c.count.toNat)
    let valid := 1 ≤ c.bitWidth.toNat ∧ c.bitWidth.toNat ≤ 8
    let long := bytesNeeded c.bitWidth.toNat c.count.toNat ≤ c.bufLen.toNat
    match c with
    | .size _ _ _ => r = ⟨.ok, b⟩
    | .reserved _ _ _ => r = ⟨.illegalCommand, 0⟩
    | .unpack _ _ _ =>
      (¬ valid ∧ r = ⟨.invalidBitWidth, b⟩) ∨ (valid ∧ ¬ long ∧ r = ⟨.bufferTooSmall, b⟩) ∨
      (valid ∧ long ∧ r = ⟨.ok, b⟩)
    | .pack w n _ =>
      (¬ valid ∧ r = ⟨.invalidBitWidth, b⟩) ∨ (valid ∧ ¬ long ∧ r = ⟨.bufferTooSmall, b⟩) ∨
      (valid ∧ long ∧ s.params.strict = true ∧ (∃ j < n.toNat, 2 ^ w.toNat - 1 < (s.srcWord j).toNat ∧
        s.valuesFit w.toNat j ∧ r = ⟨.valueOutOfRange, BitVec.ofNat 40 j⟩)) ∨
      (valid ∧ long ∧ s.valuesAccepted w.toNat n.toNat ∧ r = ⟨.ok, b⟩)

/-- R140: the codes of the five statuses; a response's status never has the code 5, 6 or 7. -/
def Obligations.StatusCodesOfTable : Prop :=
  Status.ok.code = 0#3 ∧ Status.invalidBitWidth.code = 1#3 ∧ Status.bufferTooSmall.code = 2#3 ∧
    Status.valueOutOfRange.code = 3#3 ∧ Status.illegalCommand.code = 4#3 ∧
    ∀ st : Status, st.code ≠ 5#3 ∧ st.code ≠ 6#3 ∧ st.code ≠ 7#3

/-- R147: an operation that ends with a status other than OK leaves SRC, BUF and DST bit for bit what they were. -/
def Obligations.ErrorsLeaveMemoriesUnchanged : Prop :=
  ∀ (c : Instr) (s t : State), exec c s = .next t → (∀ r, t.response = some r → r.status ≠ .ok) →
    t.src = s.src ∧ t.buf = s.buf ∧ t.dst = s.dst

/-- R149: after any response the block is idle, and after an error the next command is handled as if the erroneous one
had never been issued; the same command issued again gives the same response. -/
def Obligations.ErrorsDoNotLatch : Prop :=
  ∀ (c : Instr) (s t : State), exec c s = .next t → t.activity = .idle ∧
    ((∀ r, t.response = some r → r.status ≠ .ok) →
      (∀ (d : Instr) (u : State), exec d s = .next u → ∃ v, exec d t = .next v ∧ SameOutcome v u) ∧
      ∃ v, exec c t = .next v ∧ v.response = t.response)

/-- R181, U7: where the model gives a command no meaning: exactly for a PACK or UNPACK that passes the block's own checks
and offers memory that does not exist.  That the refusal stands after the block's own checks is the model's choice (log
entry 4). -/
def Obligations.RefusedExactlyBeyondCapacity : Prop :=
  ∀ (c : Instr) (s : State) (r : Refusal), exec c s = .refused r ↔ r = .beyondCapacity ∧
    (c.opCode = 1#2 ∨ c.opCode = 2#2) ∧ 1 ≤ c.bitWidth.toNat ∧ c.bitWidth.toNat ≤ 8 ∧
    bytesNeeded c.bitWidth.toNat c.count.toNat ≤ c.bufLen.toNat ∧
    ¬ (c.bufLen.toNat ≤ s.params.bufCap ∧ c.count.toNat ≤ s.params.valCap)

/-- R41: no command accesses a cell outside the memory that exists, in any state: exec never faults.  A command that offers
more memory than exists accesses none because the model refuses it (rule R181; log entry 4). -/
def Obligations.CommandsNeverLeaveMemory : Prop :=
  ∀ (c : Instr) (s : State), NoFault (exec c s)

/-- R10, R181: with the default capacities every encodable command, in either mode and from every state, ends with a
response and an idle block. -/
def Obligations.EveryCommandEndsWithDefaultCapacities : Prop :=
  ∀ (c : Instr) (s : State), s.params.bufCap = 2 ^ 32 → s.params.valCap = 2 ^ 32 →
    ∃ t r, exec c s = .next t ∧ t.activity = .idle ∧ t.response = some r

/-! ### PACK -/

/-- R80, R91 with R51: an accepted PACK completes.  Each bit of field `j` of BUF becomes the old bit OR the bit
`w - 1 - t` of `SRC[j]`; every bit after the fields and every byte from `B` up keeps its value; the response is (OK, B),
the cursor has run to the end, and nothing else has changed. -/
def Obligations.PackOrsPackedForm : Prop :=
  ∀ (w : WidthOperand) (n len : CountOperand) (s : State), s.accepts w n len →
    s.valuesAccepted w.toNat n.toNat → ∃ m : Memory Byte,
    let t := { s.answer (.pack w n len) .ok (bytesNeeded w.toNat n.toNat) with
      buf := m, i := n, bitpos := BitVec.ofNat 35 (n.toNat * w.toNat) }
    exec (.pack w n len) s = .next t ∧
    (∀ j < n.toNat, ∀ b < w.toNat, t.bufBit (j * w.toNat + b) =
      (s.bufBit (j * w.toNat + b) || (s.srcWord j).getLsbD (w.toNat - 1 - b))) ∧
    (∀ p, n.toNat * w.toNat ≤ p → t.bufBit p = s.bufBit p) ∧
    (∀ k, bytesNeeded w.toNat n.toNat ≤ k → t.bufByte k = s.bufByte k)

/-- R39, R88: no command ever clears a bit of BUF. -/
def Obligations.NoCommandClearsBufferBit : Prop :=
  ∀ (c : Instr) (s t : State) (p : Nat), exec c s = .next t → s.bufBit p = true → t.bufBit p = true

/-- The frame of every command: no command writes SRC, the parameters, the host's moves or the pending reset; only PACK
writes BUF, only UNPACK writes DST; the latched operands hold the command's fields (R13, R32, R33). -/
def Obligations.CommandFrame : Prop :=
  ∀ (c : Instr) (s t : State), exec c s = .next t →
    t.src = s.src ∧ t.params = s.params ∧ t.agenda = s.agenda ∧ t.resetIn = s.resetIn ∧
    t.op = c.opCode ∧ t.w = c.bitWidth ∧ t.n = c.count ∧ t.len = c.bufLen ∧
    (c.opCode ≠ 1#2 → t.buf = s.buf) ∧ (c.opCode ≠ 2#2 → t.dst = s.dst) ∧
    (∀ k, bytesNeeded c.bitWidth.toNat c.count.toNat ≤ k → t.bufByte k = s.bufByte k) ∧
    (∀ k, c.count.toNat ≤ k → t.dstWord k = s.dstWord k)

/-- R84: the fit step.  The shift loses nothing, one byte changes, to its old content OR the shifted value, and the
cursor advances. -/
def Obligations.PackFitStep : Prop :=
  ∀ s : State, widthValid s.w.toNat → s.needed ≤ s.params.bufCap → s.n.toNat ≤ s.params.valCap →
    s.i.toNat < s.n.toNat → s.bitpos.toNat = s.i.toNat * s.w.toNat →
    s.bitpos.toNat % 8 + s.w.toNat ≤ 8 → ∃ m : Memory Byte, ∃ x : Byte,
    let t := { s with buf := m, i := s.i + 1, bitpos := BitVec.ofNat 35 (s.bitpos.toNat + s.w.toNat) }
    packElement s = .next t ∧
    x.toNat = (s.srcWord s.i.toNat).toNat % 2 ^ s.w.toNat * 2 ^ (8 - s.bitpos.toNat % 8 - s.w.toNat) ∧
    t.bufByte (s.bitpos.toNat / 8) = s.bufByte (s.bitpos.toNat / 8) ||| x ∧
    ∀ k, k ≠ s.bitpos.toNat / 8 → t.bufByte k = s.bufByte k

/-- R86: the spill step.  The high bits of the masked value go to the lower byte, the low `spillage` bits, left-aligned,
to the next; no other byte changes, and the cursor advances. -/
def Obligations.PackSpillStep : Prop :=
  ∀ s : State, widthValid s.w.toNat → s.needed ≤ s.params.bufCap → s.n.toNat ≤ s.params.valCap →
    s.i.toNat < s.n.toNat → s.bitpos.toNat = s.i.toNat * s.w.toNat →
    8 < s.bitpos.toNat % 8 + s.w.toNat → ∃ m : Memory Byte, ∃ x y : Byte,
    let t := { s with buf := m, i := s.i + 1, bitpos := BitVec.ofNat 35 (s.bitpos.toNat + s.w.toNat) }
    let spill := (s.bitpos.toNat % 8 + s.w.toNat) % 8
    let v := (s.srcWord s.i.toNat).toNat % 2 ^ s.w.toNat
    packElement s = .next t ∧ x.toNat = v / 2 ^ spill ∧ y.toNat = v % 2 ^ spill * 2 ^ (8 - spill) ∧
    t.bufByte (s.bitpos.toNat / 8) = s.bufByte (s.bitpos.toNat / 8) ||| x ∧
    t.bufByte (s.bitpos.toNat / 8 + 1) = s.bufByte (s.bitpos.toNat / 8 + 1) ||| y ∧
    ∀ k, k ≠ s.bitpos.toNat / 8 → k ≠ s.bitpos.toNat / 8 + 1 → t.bufByte k = s.bufByte k

/-- R92, R111: with `n = 0` validation runs, and with a valid width PACK and UNPACK answer (OK, 0) for every `len` up to
`BUF_CAP` and access no memory.  That an invalid width is answered also for a `len` above `BUF_CAP`, which rule R181 puts
outside the spec, is the model's choice (log entry 4). -/
def Obligations.EmptySequenceTouchesNothing : Prop :=
  ∀ (w : WidthOperand) (len : CountOperand) (s : State),
    (¬ (1 ≤ w.toNat ∧ w.toNat ≤ 8) →
      exec (.pack w 0 len) s = .next (s.answer (.pack w 0 len) .invalidBitWidth 0) ∧
      exec (.unpack w 0 len) s = .next (s.answer (.unpack w 0 len) .invalidBitWidth 0)) ∧
    (1 ≤ w.toNat ∧ w.toNat ≤ 8 → len.toNat ≤ s.params.bufCap →
      exec (.pack w 0 len) s = .next { s.answer (.pack w 0 len) .ok 0 with i := 0, bitpos := 0 } ∧
      exec (.unpack w 0 len) s = .next { s.answer (.unpack w 0 len) .ok 0 with i := 0, bitpos := 0 })

/-- R93: PACK at the boundary widths.  At `w = 8` each byte becomes its old content OR the low byte of the value; at
`w = 1` value `j` goes to stream bit `j mod 8` of byte `j / 8`. -/
def Obligations.PackBoundaryWidths : Prop :=
  (∀ (n len : CountOperand) (s : State), s.accepts 8 n len → s.valuesAccepted 8 n.toNat → ∃ t,
    exec (.pack 8 n len) s = .next t ∧
    ∀ j < n.toNat, t.bufByte j = s.bufByte j ||| (s.srcWord j &&& 0xFF#32).setWidth 8) ∧
  (∀ (n len : CountOperand) (s : State), s.accepts 1 n len → s.valuesAccepted 1 n.toNat → ∃ t,
    exec (.pack 1 n len) s = .next t ∧
    ∀ j < n.toNat, (t.bufByte (j / 8)).getLsbD (7 - j % 8) =
      ((s.bufByte (j / 8)).getLsbD (7 - j % 8) || (s.srcWord j).getLsbD 0))

/-- R122: with STRICT off, packing values and packing values equal to them modulo `2^w` end with the same response and
the same BUF; with STRICT on, values of which one is out of range are rejected with ValueOutOfRange. -/
def Obligations.PackIgnoresHighBits : Prop :=
  ∀ (w : WidthOperand) (n len : CountOperand) (s : State), s.accepts w n len →
    (s.params.strict = false → ∀ src' : Memory Value,
      (∀ j < n.toNat, (State.srcWord { s with src := src' } j).toNat = (s.srcWord j).toNat % 2 ^ w.toNat) → ∃ t u,
      exec (.pack w n len) s = .next t ∧ exec (.pack w n len) { s with src := src' } = .next u ∧
      t.response = u.response ∧ ∀ k, t.bufByte k = u.bufByte k) ∧
    (s.params.strict = true → (∃ j < n.toNat, 2 ^ w.toNat - 1 < (s.srcWord j).toNat) → ∃ t i,
      exec (.pack w n len) s = .next t ∧ t.response = some ⟨.valueOutOfRange, i⟩)

/-- R128: PACK commutes with OR and is idempotent.  From any buffer the result is the old buffer OR what the same PACK
makes of a buffer that reads as zero everywhere, byte by byte, and a second PACK changes no byte. -/
def Obligations.PackCommutesWithOr : Prop :=
  ∀ (w : WidthOperand) (n len : CountOperand) (s : State) (zeroed : Memory Byte), s.accepts w n len →
    s.valuesAccepted w.toNat n.toNat → (∀ k, State.bufByte { s with buf := zeroed } k = 0) →
    ∃ t z u, exec (.pack w n len) s = .next t ∧ exec (.pack w n len) { s with buf := zeroed } = .next z ∧
    exec (.pack w n len) t = .next u ∧ ∀ k, t.bufByte k = s.bufByte k ||| z.bufByte k ∧ u.bufByte k = t.bufByte k

/-! ### UNPACK -/

/-- R106, R108 with R107: an accepted UNPACK completes.  `DST[j]` becomes the `w`-bit number whose bit `w - 1 - t` is
the bit of BUF at virtual position `j·w + t`, zero-extended; every other word of DST keeps its content; the response is
(OK, B), the cursor has run to the end, and nothing else has changed. -/
def Obligations.UnpackReadsFields : Prop :=
  ∀ (w : WidthOperand) (n len : CountOperand) (s : State), s.accepts w n len → ∃ m : Memory Value,
    let t := { s.answer (.unpack w n len) .ok (bytesNeeded w.toNat n.toNat) with
      dst := m, i := n, bitpos := BitVec.ofNat 35 (n.toNat * w.toNat) }
    exec (.unpack w n len) s = .next t ∧
    (∀ j < n.toNat, (t.dstWord j).toNat < 2 ^ w.toNat ∧
      ∀ b < w.toNat, (t.dstWord j).getLsbD (w.toNat - 1 - b) = s.bufBit (j * w.toNat + b)) ∧
    (∀ j, n.toNat ≤ j → t.dstWord j = s.dstWord j)

/-- R103, R104: the element step of UNPACK with the expressions of the document, the fit case and the spill case. -/
def Obligations.UnpackElementSteps : Prop :=
  ∀ s : State, widthValid s.w.toNat → s.needed ≤ s.params.bufCap → s.n.toNat ≤ s.params.valCap →
    s.i.toNat < s.n.toNat → s.bitpos.toNat = s.i.toNat * s.w.toNat → ∃ m : Memory Value,
    let t := { s with dst := m, i := s.i + 1, bitpos := BitVec.ofNat 35 (s.bitpos.toNat + s.w.toNat) }
    let o := s.bitpos.toNat % 8
    let w := s.w.toNat
    let b0 := (s.bufByte (s.bitpos.toNat / 8)).toNat
    let b1 := (s.bufByte (s.bitpos.toNat / 8 + 1)).toNat
    unpackElement s = .next t ∧
    (o + w ≤ 8 → (t.dstWord s.i.toNat).toNat = b0 / 2 ^ (7 - (o + w - 1)) % 2 ^ w) ∧
    (8 < o + w → (t.dstWord s.i.toNat).toNat =
      (b0 * 2 ^ ((o + w) % 8) % 2 ^ w) ||| (b1 / 2 ^ (8 - (o + w) % 8) % 2 ^ w)) ∧
    ∀ k, k ≠ s.i.toNat → t.dstWord k = s.dstWord k

/-- R109: UNPACK depends on the field bits alone, and no content of BUF is an error: two buffers that agree on the virtual
positions `[0, n·w)` give the same words and the same response, OK, whatever their trailing bits and other bytes. -/
def Obligations.UnpackIgnoresOtherBits : Prop :=
  ∀ (w : WidthOperand) (n len : CountOperand) (s : State) (buf' : Memory Byte), s.accepts w n len →
    (∀ p < n.toNat * w.toNat, State.bufBit { s with buf := buf' } p = s.bufBit p) → ∃ t u,
    exec (.unpack w n len) s = .next t ∧ exec (.unpack w n len) { s with buf := buf' } = .next u ∧
    t.response = some ⟨.ok, BitVec.ofNat 40 (bytesNeeded w.toNat n.toNat)⟩ ∧ u.response = t.response ∧
    ∀ k, t.dstWord k = u.dstWord k

/-- R112: UNPACK at the boundary widths. -/
def Obligations.UnpackBoundaryWidths : Prop :=
  (∀ (n len : CountOperand) (s : State), s.accepts 1 n len → ∃ t, exec (.unpack 1 n len) s = .next t ∧
    ∀ j < n.toNat, (t.dstWord j).toNat = (s.bufByte (j / 8)).toNat / 2 ^ (7 - j % 8) % 2) ∧
  (∀ (n len : CountOperand) (s : State), s.accepts 8 n len → ∃ t, exec (.unpack 8 n len) s = .next t ∧
    ∀ j < n.toNat, t.dstWord j = (s.bufByte j).setWidth 32)

/-! ### Laws of PACK and UNPACK together -/

/-- R120, R129: round trip.  From any buffer that is zero on the virtual positions `[0, n·w)`, PACK then UNPACK with the
same `(w, n)` answer (OK, B) twice and DST holds the input modulo `2^w`, which is the input itself where it fits. -/
def Obligations.PackThenUnpackRestoresValues : Prop :=
  ∀ (w : WidthOperand) (n len len' : CountOperand) (s : State), s.accepts w n len → s.accepts w n len' →
    s.valuesAccepted w.toNat n.toNat → (∀ p < n.toNat * w.toNat, s.bufBit p = false) → ∃ t u,
    exec (.pack w n len) s = .next t ∧ exec (.unpack w n len') t = .next u ∧
    t.response = some ⟨.ok, BitVec.ofNat 40 (bytesNeeded w.toNat n.toNat)⟩ ∧ u.response = t.response ∧
    (∀ j < n.toNat, (u.dstWord j).toNat = (s.srcWord j).toNat % 2 ^ w.toNat) ∧
    (s.valuesFit w.toNat n.toNat → ∀ j < n.toNat, u.dstWord j = s.srcWord j)

/-- R130: unpacking bytes and packing the values again, into a buffer that is zero on the footprint, gives the bytes with
the trailing bits of the last byte cleared. -/
def Obligations.UnpackThenPackRestoresBytes : Prop :=
  ∀ (w : WidthOperand) (n len : CountOperand) (s v : State), s.accepts w n len → v.accepts w n len →
    ∃ t, exec (.unpack w n len) s = .next t ∧
    ((∀ j < n.toNat, v.srcWord j = t.dstWord j) → (∀ p < 8 * bytesNeeded w.toNat n.toNat, v.bufBit p = false) →
      ∃ u, exec (.pack w n len) v = .next u ∧
      (∀ p < n.toNat * w.toNat, u.bufBit p = s.bufBit p) ∧
      ∀ p, n.toNat * w.toNat ≤ p → p < 8 * bytesNeeded w.toNat n.toNat → u.bufBit p = false)

/-- R130: on a zeroed buffer PACK is injective on sequences of values in range. -/
def Obligations.PackIsInjective : Prop :=
  ∀ (w : WidthOperand) (n len : CountOperand) (s v t u : State), s.accepts w n len → v.accepts w n len →
    s.valuesFit w.toNat n.toNat → v.valuesFit w.toNat n.toNat →
    (∀ p < n.toNat * w.toNat, s.bufBit p = false ∧ v.bufBit p = false) →
    exec (.pack w n len) s = .next t → exec (.pack w n len) v = .next u →
    (∀ k < bytesNeeded w.toNat n.toNat, t.bufByte k = u.bufByte k) →
    ∀ j < n.toNat, s.srcWord j = v.srcWord j

/-- R126: a PACK or UNPACK with exactly `buf_len = B` is accepted and completes wherever `B` bytes and `n` words exist:
memories of exactly that size are among these, so it touches nothing beyond them; and BUF from byte `B` up and DST from
word `n` up keep their content.  UNPACK answers OK, and so does PACK but for a value that strict mode rejects. -/
def Obligations.ExactMemoriesSuffice : Prop :=
  ∀ (w : WidthOperand) (n len : CountOperand) (s : State), 1 ≤ w.toNat ∧ w.toNat ≤ 8 →
    len.toNat = bytesNeeded w.toNat n.toNat → bytesNeeded w.toNat n.toNat ≤ s.params.bufCap →
    n.toNat ≤ s.params.valCap →
    (∃ t r, exec (.pack w n len) s = .next t ∧ t.activity = .idle ∧ t.response = some r ∧
      (s.valuesAccepted w.toNat n.toNat → r = ⟨.ok, BitVec.ofNat 40 len.toNat⟩) ∧
      (∀ k, len.toNat ≤ k → t.bufByte k = s.bufByte k) ∧ t.dst = s.dst) ∧
    ∃ u, exec (.unpack w n len) s = .next u ∧ u.activity = .idle ∧
      u.response = some ⟨.ok, BitVec.ofNat 40 len.toNat⟩ ∧ u.buf = s.buf ∧
      ∀ k, n.toNat ≤ k → u.dstWord k = s.dstWord k

/-! ### The machine -/

/-- A step beside an idle block with no reset under way runs exactly the command whose word the host presents: it is exec
of the decoded command on the state with the host's move taken and the response before it gone (R10, R17, R57).  That
the host's moves stand in the state, and that an operation runs as one transition here, is the model's choice (log
entries 5 and 7). -/
def Obligations.StepRunsPresentedCommand : Prop :=
  ∀ (s : State) (word : CmdWord) (rest : List HostMove), s.activity = .idle → s.resetIn = none →
    s.agenda = .issue word :: rest →
    step s = exec (decode word) { s with response := none, agenda := rest }

/-- Presenting a word with `withFetchWord` makes the next step run it (the model's way for a command to reach the block,
log entry 7). -/
def Obligations.FetchWordIsRunNext : Prop :=
  ∀ (s : State) (w : Nat), w < 2 ^ 74 → ∃ i, decodeTableWord 80 w = some i ∧
    step (s.withFetchWord 80 w) = exec i { s with activity := .idle, resetIn := none, response := none }

/-- R184: the finest granularity refines the whole operation.  Run access by access from acceptance, every command ends
where the one transition ends, after at most `6·n + 3` transitions; one that is refused is refused at validation.  The
bound counts the accesses of R38 and the model's own transitions for validation, the end of the scan and the response
(log entry 5); that a refusal stands at validation is the model's choice (log entry 4). -/
def Obligations.AccessesRefineOperation : Prop :=
  ∀ (c : Instr) (s : State),
    (∀ t, exec c s = .next t → ∃ k ≤ 6 * c.count.toNat + 3, ticks k (accept c s) = .next t) ∧
    (∀ r, exec c s = .refused r → ticks 1 (accept c s) = .refused r)

/-- The invariant of the machine is kept by every step: memories in canonical form, `BITPOS = I·W` with no wrap (R15),
and a busy block standing only where its operation can stand. -/
def Obligations.StepKeepsInvariant : Prop :=
  ∀ s t : State, s.Inv = true → step s = .next t → t.Inv = true

/-- The invariant holds right after reset. -/
def Obligations.ResetMeetsInvariant : Prop := State.reset.Inv = true

/-- R41 access by access: from a state that meets the invariant a busy block never faults. -/
def Obligations.BusyBlockNeverFaults : Prop :=
  ∀ (s : State) (p : Point), s.Inv = true → s.activity = .busy p → NoFault (step s)

/-- R171: after reset the block is idle and no response is pending; the parameters are the defaults of R6. -/
def Obligations.StateAfterReset : Prop :=
  State.reset.activity = .idle ∧ State.reset.response = none ∧ State.reset.params = ⟨false, 2 ^ Config.CW, 2 ^ Config.CW⟩

/-- R170, R172, R173: asserting reset makes the block idle with no response pending and no access; SRC, BUF and DST stay as
they are; the next command is handled like any other.  The model's two ways of asserting it are the counter `resetIn` at
0, at any moment, and the host's move `.reset` beside an idle block (log entries 5 and 13). -/
def Obligations.ResetAbandonsOperation : Prop :=
  (∀ s : State, s.resetIn = some 0 → ∃ t, step s = .next t ∧ t.agenda = s.agenda ∧ ResetLeaves s t) ∧
  ∀ (s : State) (rest : List HostMove), s.activity = .idle → s.resetIn = none → s.agenda = .reset :: rest →
    ∃ t, step s = .next t ∧ t.agenda = rest ∧ ResetLeaves s t

/-- R172: what a reset during a PACK leaves, after any number of transitions (log entry 5).  Before the element loop BUF is
as it was.  At every point of the loop the elements `0 .. I-1` are complete, of element `I` at most the first of the two
byte writes of a spill step is done, and no other bit has changed.  SRC and DST are as they were, and no bit ever leaves
the range between its old value and the packed form. -/
def Obligations.ResetDuringPackLeavesPrefix : Prop :=
  ∀ (w : WidthOperand) (n len : CountOperand) (s t : State) (k : Nat), s.accepts w n len →
    ticks k (accept (.pack w n len) s) = .next t →
    (performReset t).buf = t.buf ∧ (performReset t).src = s.src ∧ (performReset t).dst = s.dst ∧
    (performReset t).response = none ∧
    (∀ point, t.activity = .busy point →
      (point.inPackLoop = false → ∀ p, t.bufBit p = s.bufBit p) ∧
      (point.inPackLoop = true → t.i.toNat ≤ n.toNat ∧
        (point.firstByteWritten = true → t.i.toNat < n.toNat ∧ ¬ fits (t.i.toNat * w.toNat) w.toNat) ∧
        ∀ j < n.toNat, ∀ b < w.toNat, t.bufBit (j * w.toNat + b) =
          (s.bufBit (j * w.toNat + b) || (t.fieldBitDone point j b && (s.srcWord j).getLsbD (w.toNat - 1 - b))))) ∧
    (∀ j < n.toNat, ∀ b < w.toNat,
      (s.bufBit (j * w.toNat + b) = true → t.bufBit (j * w.toNat + b) = true) ∧
      (t.bufBit (j * w.toNat + b) = true → s.bufBit (j * w.toNat + b) = true ∨
        (s.srcWord j).getLsbD (w.toNat - 1 - b) = true)) ∧
    (∀ p, n.toNat * w.toNat ≤ p → t.bufBit p = s.bufBit p)

/-- R172: what a reset during an UNPACK leaves, after any number of transitions (log entry 5): `DST[0 .. I-1]` written with
their fields, every other word as it was, BUF and SRC untouched. -/
def Obligations.ResetDuringUnpackLeavesPrefix : Prop :=
  ∀ (w : WidthOperand) (n len : CountOperand) (s t : State) (k : Nat) (p : Point), s.accepts w n len →
    ticks k (accept (.unpack w n len) s) = .next t → t.activity = .busy p → p ≠ .check →
    (performReset t).dst = t.dst ∧ (performReset t).src = s.src ∧ (performReset t).buf = s.buf ∧
    (performReset t).response = none ∧
    (∀ j < t.i.toNat, (t.dstWord j).toNat < 2 ^ w.toNat ∧
      ∀ b < w.toNat, (t.dstWord j).getLsbD (w.toNat - 1 - b) = s.bufBit (j * w.toNat + b)) ∧
    (∀ j, t.i.toNat ≤ j → t.dstWord j = s.dstWord j)

/-- R11: the outcome of an operation is a function of its command and of the memories (and the static parameters), and of
nothing else: not of the registers, the activity, an earlier response or the host's further moves. -/
def Obligations.OutcomeDependsOnMemoriesOnly : Prop :=
  ∀ (c : Instr) (s u t : State), s.params = u.params → s.src = u.src → s.buf = u.buf → s.dst = u.dst →
    exec c s = .next t → ∃ v, exec c u = .next v ∧ SameOutcome v t

/-- R13, R180: while the block is busy, the latched operands do not change, the host's moves wait, and what the host
would do next (the model's field `agenda`, log entry 5) has no effect on the operation in flight. -/
def Obligations.BusyBlockIgnoresHost : Prop :=
  ∀ (s t : State) (p : Point), s.activity = .busy p → s.resetIn ≠ some 0 → step s = .next t →
    t.op = s.op ∧ t.w = s.w ∧ t.n = s.n ∧ t.len = s.len ∧ t.agenda = s.agenda ∧
    ∀ moves : List HostMove, step { s with agenda := moves } = .next { t with agenda := moves }

/-- R14, R15: after `k` element steps of PACK or UNPACK from the start of the loop, `I = k` and `BITPOS = k·W`, exactly:
neither wraps. -/
def Obligations.CursorCountsElements : Prop :=
  ∀ (s : State) (k : Nat), widthValid s.w.toNat → s.needed ≤ s.params.bufCap → s.n.toNat ≤ s.params.valCap →
    k ≤ s.n.toNat →
    (∃ t, elements packElement k (startLoop s) = .next t ∧ t.i.toNat = k ∧ t.bitpos.toNat = k * s.w.toNat) ∧
    (∃ t, elements unpackElement k (startLoop s) = .next t ∧ t.i.toNat = k ∧ t.bitpos.toNat = k * s.w.toNat)

/-- R17: the parameters are static, and a response is an event: no step changes the parameters, and a step that runs no
operation to its end leaves no response pending (that the event stands in the state for one step is the model's choice,
log entry 8). -/
def Obligations.ParametersStaticResponseTransient : Prop :=
  ∀ s t : State, step s = .next t → t.params = s.params ∧
    (s.activity = .idle → (∀ word rest, s.agenda ≠ .issue word :: rest) → t.response = none) ∧
    (s.activity ≠ .idle → t.activity ≠ .idle → s.response = none → t.response = none)

/-- R20, R174: beside an idle block the host writes its memories one cell at a time; the cell holds what was written and
every other cell of every space is as before.  The host's moves as a list in the state are the model's (log entry 5). -/
def Obligations.HostWritesItsMemories : Prop :=
  ∀ (s : State) (index : CountOperand) (rest : List HostMove), s.activity = .idle → s.resetIn = none →
    (∀ b : Byte, s.agenda = .writeBuf index b :: rest → index.toNat < s.params.bufCap → ∃ m,
      step s = .next { s with buf := m, response := none, agenda := rest } ∧
      ∀ k, State.bufByte { s with buf := m } k = if k = index.toNat then b else s.bufByte k) ∧
    (∀ v : Value, s.agenda = .writeSrc index v :: rest → index.toNat < s.params.valCap → ∃ m,
      step s = .next { s with src := m, response := none, agenda := rest } ∧
      ∀ k, State.srcWord { s with src := m } k = if k = index.toNat then v else s.srcWord k) ∧
    (∀ v : Value, s.agenda = .writeDst index v :: rest → index.toNat < s.params.valCap → ∃ m,
      step s = .next { s with dst := m, response := none, agenda := rest } ∧
      ∀ k, State.dstWord { s with dst := m } k = if k = index.toNat then v else s.dstWord k)

/-- R43, R47: the spaces are plain storage and disjoint: a read returns the last value written to the cell, every other
cell and the two other spaces are untouched.  No rule gives an access to a cell that does not exist an effect; that it
stops as `noSuchCell` is the model's inference (log entry 11). -/
def Obligations.SpacesArePlainStorage : Prop :=
  ∀ (s t : State) (k : Nat),
    (∀ b, writeBuf s k b = .next t → readBuf t k = .next b ∧ (∀ j, j ≠ k → readBuf t j = readBuf s j) ∧
      t.src = s.src ∧ t.dst = s.dst) ∧
    (∀ v, writeDst s k v = .next t → t.dstWord k = v ∧ (∀ j, j ≠ k → t.dstWord j = s.dstWord j) ∧
      t.src = s.src ∧ t.buf = s.buf) ∧
    (∀ v, writeSrc s k v = .next t → readSrc t k = .next v ∧ (∀ j, j ≠ k → readSrc t j = readSrc s j) ∧
      t.buf = s.buf ∧ t.dst = s.dst) ∧
    (s.params.bufCap ≤ k → readBuf s k = .fault .noSuchCell ∧ ∀ b, writeBuf s k b = .fault .noSuchCell) ∧
    (s.params.valCap ≤ k → readSrc s k = .fault .noSuchCell ∧ (∀ v, writeDst s k v = .fault .noSuchCell) ∧
      ∀ v, writeSrc s k v = .fault .noSuchCell)

/-- R172, R184: a busy block performs one transition a step, in the state it stands in; a command that a reset is going
to cut short is accepted and then runs so, the reset one transition nearer each time.  That the host's reset is a counter in
the state is the model's choice (log entry 5). -/
def Obligations.BusyStepIsOneAccess : Prop :=
  (∀ (s : State) (p : Point), s.activity = .busy p → s.resetIn = none → step s = tick p s) ∧
  (∀ (s : State) (p : Point) (k : Nat), s.activity = .busy p → s.resetIn = some (k + 1) →
    step s = tick p { s with resetIn := some k }) ∧
  ∀ (s : State) (word : CmdWord) (k : Nat) (rest : List HostMove), s.activity = .idle → s.resetIn = none →
    s.agenda = .issueThenReset word k :: rest → ∃ t, step s = .next t ∧ t.activity = .busy .check ∧
    t.resetIn = some k ∧ t.agenda = rest ∧ t.response = none ∧ t.op = (decode word).opCode ∧
    t.w = (decode word).bitWidth ∧ t.n = (decode word).count ∧ t.len = (decode word).bufLen ∧
    t.src = s.src ∧ t.buf = s.buf ∧ t.dst = s.dst

/-- R38, R86: the accesses of PACK's element step, one by one.  First `SRC[I]` is read, then `BUF[byte_index]` is read and
then written, which ends the fit step; in the spill case `BUF[byte_index + 1]` is read next, still with its old content,
and written last. -/
def Obligations.PackStepWritesLowerByteFirst : Prop :=
  ∀ s : State, widthValid s.w.toNat → s.needed ≤ s.params.bufCap → s.n.toNat ≤ s.params.valCap →
    s.i.toNat < s.n.toNat → s.bitpos.toNat = s.i.toNat * s.w.toNat →
    let v := s.srcWord s.i.toNat
    let k0 := byteIndex s.bitpos.toNat
    ticks 1 (s.goto .packSource) = .next (s.goto (.packFirstRead v)) ∧
    ticks 2 (s.goto .packSource) = .next (s.goto (.packFirstWrite v (s.bufByte k0))) ∧
    ∃ t u, packElement s = .next t ∧ ticks 3 (s.goto .packSource) = .next u ∧
    (fits s.bitpos.toNat s.w.toNat → u = t.goto .packSource) ∧
    (¬ fits s.bitpos.toNat s.w.toNat → u.activity = .busy (.packSecondRead v) ∧ u.bufByte k0 = t.bufByte k0 ∧
      (∀ k, k ≠ k0 → u.bufByte k = s.bufByte k) ∧
      ticks 4 (s.goto .packSource) = .next (u.goto (.packSecondWrite v (s.bufByte (k0 + 1)))) ∧
      ticks 5 (s.goto .packSource) = .next (t.goto .packSource))
end

