-- ==== Sys2Proof/Laws/Memory.lean ====
section
/-! SUPPORT. The laws of one memory space: a read after a write (rule R43), every other cell left alone, and the
canonical form kept by every operation. -/

namespace Sys2Proof.Machine.Memory

variable {α : Type}

@[simp] theorem read_nil (u : α) (k : Nat) : Memory.read u [] k = u := rfl

theorem read_cons (u : α) (a : Nat) (x : α) (m : Memory α) (k : Nat) :
    Memory.read u ((a, x) :: m) k = if a = k then x else Memory.read u m k := rfl

theorem read_erase_same (u : α) (m : Memory α) (k : Nat) : Memory.read u (m.erase k) k = u := by
  induction m with
  | nil => rfl
  | cons c m ih =>
    obtain ⟨a, x⟩ := c
    by_cases h : a = k
    · simpa [Memory.erase, h] using ih
    · simpa [Memory.erase, h, read_cons] using ih

theorem read_erase_ne (u : α) (m : Memory α) {k j : Nat} (h : j ≠ k) :
    Memory.read u (m.erase k) j = Memory.read u m j := by
  induction m with
  | nil => rfl
  | cons c m ih =>
    obtain ⟨a, x⟩ := c
    by_cases ha : a = k
    · have : a ≠ j := by omega
      simpa [Memory.erase, ha, read_cons, Ne.symm h] using ih
    · by_cases hj : a = j
      · simp [Memory.erase, hj, read_cons, h]
      · simpa [Memory.erase, ha, hj, read_cons] using ih

theorem read_insert_same (u : α) (m : Memory α) (k : Nat) (v : α) : Memory.read u (m.insert k v) k = v := by
  induction m with
  | nil => simp [Memory.insert, read_cons]
  | cons c m ih =>
    obtain ⟨a, x⟩ := c
    simp only [Memory.insert]
    split
    · simp [read_cons]
    · split
      · simp [read_cons]
      · rw [read_cons, if_neg (by omega), ih]

theorem read_insert_ne (u : α) (m : Memory α) {k j : Nat} (v : α) (h : j ≠ k) :
    Memory.read u (m.insert k v) j = Memory.read u m j := by
  induction m with
  | nil => simp [Memory.insert, read_cons, Ne.symm h]
  | cons c m ih =>
    obtain ⟨a, x⟩ := c
    simp only [Memory.insert]
    split
    · simp [read_cons, Ne.symm h]
    · split
      · next hk => subst hk; simp [read_cons, Ne.symm h]
      · simp [read_cons, ih]

variable [DecidableEq α]

/-- A read returns the last value written to the cell (rule R43), in every memory. -/
@[simp] theorem read_write_same (u : α) (m : Memory α) (k : Nat) (v : α) :
    Memory.read u (m.write u k v) k = v := by
  unfold Memory.write
  split
  · next h => rw [h, read_erase_same]
  · exact read_insert_same u m k v

/-- A write leaves every other cell alone, in every memory. -/
theorem read_write_ne (u : α) (m : Memory α) {k j : Nat} (v : α) (h : j ≠ k) :
    Memory.read u (m.write u k v) j = Memory.read u m j := by
  unfold Memory.write
  split
  · exact read_erase_ne u m h
  · exact read_insert_ne u m v h

theorem read_write (u : α) (m : Memory α) (k j : Nat) (v : α) :
    Memory.read u (m.write u k v) j = if j = k then v else Memory.read u m j := by
  split
  · next h => rw [h, read_write_same]
  · next h => exact read_write_ne u m v h

/-! ### The canonical form -/

theorem wfFrom_mono (u : α) (cap : Nat) {lo lo' : Nat} (m : Memory α) (hlo : lo' ≤ lo)
    (h : Memory.wfFrom u cap lo m = true) : Memory.wfFrom u cap lo' m = true := by
  cases m with
  | nil => rfl
  | cons c m =>
    simp only [Memory.wfFrom, Bool.and_eq_true, decide_eq_true_eq] at h ⊢
    exact ⟨⟨⟨hlo.trans h.1.1.1, h.1.1.2⟩, h.1.2⟩, h.2⟩

theorem erase_wfFrom (u : α) (cap k : Nat) {lo : Nat} (m : Memory α)
    (h : Memory.wfFrom u cap lo m = true) : Memory.wfFrom u cap lo (m.erase k) = true := by
  induction m generalizing lo with
  | nil => rfl
  | cons c m ih =>
    obtain ⟨a, x⟩ := c
    have h0 := h
    simp only [Memory.wfFrom, Bool.and_eq_true, decide_eq_true_eq] at h
    obtain ⟨⟨⟨hlo, ha⟩, hx⟩, hrest⟩ := h
    by_cases hk : a = k
    · have := ih (wfFrom_mono u cap (lo' := lo) m (by omega) hrest)
      simpa [Memory.erase, hk] using this
    · have h1 : Memory.erase ((a, x) :: m) k = (a, x) :: Memory.erase m k := by simp [Memory.erase, hk]
      rw [h1]
      simp [Memory.wfFrom, hlo, ha, hx, ih hrest]

theorem insert_wfFrom (u : α) (cap k : Nat) (v : α) {lo : Nat} (m : Memory α) (hlo : lo ≤ k) (hk : k < cap)
    (hv : v ≠ u) (h : Memory.wfFrom u cap lo m = true) : Memory.wfFrom u cap lo (m.insert k v) = true := by
  induction m generalizing lo with
  | nil => simp [Memory.insert, Memory.wfFrom, hlo, hk, hv]
  | cons c m ih =>
    obtain ⟨a, x⟩ := c
    have h0 := h
    simp only [Memory.wfFrom, Bool.and_eq_true, decide_eq_true_eq] at h
    obtain ⟨⟨⟨hla, ha⟩, hx⟩, hrest⟩ := h
    simp only [Memory.insert]
    split
    · next hka => simp [Memory.wfFrom, hlo, hk, hv, ha, hx, hrest]; omega
    · split
      · next hka =>
        have := wfFrom_mono u cap (lo' := k + 1) m (by omega) hrest
        simp [Memory.wfFrom, hlo, hk, hv, this]
      · simp [Memory.wfFrom, hla, ha, hx, ih (lo := a + 1) (by omega) hrest]

/-- A write below the capacity keeps the canonical form. -/
theorem write_wf (u : α) (cap k : Nat) (v : α) (m : Memory α) (hk : k < cap) (h : Memory.wf u cap m = true) :
    Memory.wf u cap (m.write u k v) = true := by
  unfold Memory.write
  split
  · exact erase_wfFrom u cap k m h
  · next hv => exact insert_wfFrom u cap k v m (Nat.zero_le k) hk hv h

theorem wf_nil (u : α) (cap : Nat) : Memory.wf u cap ([] : Memory α) = true := rfl

end Sys2Proof.Machine.Memory
end

