-- ==== Sys2Proof/Laws/Operands.lean ====
section
/-! SUPPORT. What each operand computation of Operands.lean does, bit by bit (rules R54, R83 to R86, R102 to R106), and
the bounds of the size formula (rules R71, R73). -/

namespace Sys2Proof.Machine

/-! ### The size formula -/

/-- `B` bytes hold the `w·n` bits of the stream, and no fewer do (rule R71). -/
theorem bytesNeeded_bounds (w n : Nat) : w * n ≤ 8 * bytesNeeded w n ∧ 8 * bytesNeeded w n < w * n + 8 := by
  unfold bytesNeeded; omega

/-- A byte of the footprint is one that holds a bit of the stream (rule R90). -/
theorem div_lt_bytesNeeded {w n p : Nat} (h : p < w * n) : p / 8 < bytesNeeded w n := by
  unfold bytesNeeded; omega

/-- For a valid width the footprint is no longer than the sequence (rule R73). -/
theorem bytesNeeded_le_count {w n : Nat} (hw : w ≤ 8) : bytesNeeded w n ≤ n := by
  have : w * n ≤ 8 * n := Nat.mul_le_mul_right n hw
  unfold bytesNeeded; omega

/-- Element `i`'s last bit lies inside the stream (rules R15, R90). -/
theorem element_end_le {w n i : Nat} (h : i < n) : i * w + w ≤ w * n := by
  calc i * w + w = w * (i + 1) := by ring
    _ ≤ w * n := Nat.mul_le_mul_left w h

/-! ### Bits -/

theorem mask_lt {w : Nat} (hw : w ≤ 8) : mask w < 256 := by
  have : 2 ^ w ≤ 2 ^ 8 := Nat.pow_le_pow_right (by omega) hw
  unfold mask; omega

theorem mask_testBit (w k : Nat) : (mask w).testBit k = decide (k < w) := Nat.testBit_two_pow_sub_one w k

theorem ofNat_mask_getLsbD (m w k : Nat) : (BitVec.ofNat m (mask w)).getLsbD k = (decide (k < m) && decide (k < w)) := by
  simp [BitVec.getLsbD_ofNat, mask_testBit]

/-- The masked value is the value's low `w` bits (rule R83). -/
theorem masked_getLsbD (v : Value) {w : Nat} (hw : w ≤ 8) (k : Nat) :
    (masked v w).getLsbD k = (decide (k < w) && v.getLsbD k) := by
  simp only [masked, BitVec.getLsbD_setWidth, BitVec.getLsbD_and, ofNat_mask_getLsbD]
  by_cases h : k < w
  · have h8 : k < 8 := by omega
    have h32 : k < 32 := by omega
    simp [h, h8, h32]
  · simp [h]

/-- `masked` is `v mod 2^w` (rules R83, R127). -/
theorem masked_toNat (v : Value) {w : Nat} (hw : w ≤ 8) : (masked v w).toNat = v.toNat % 2 ^ w := by
  refine Nat.eq_of_testBit_eq fun k => ?_
  rw [BitVec.testBit_toNat, masked_getLsbD v hw, Nat.testBit_mod_two_pow, BitVec.testBit_toNat]

/-- The bit of field value `v` that stream bit `j` of the byte at `byteIndex p` holds, if it holds one: the field starts
at stream bit `offsetIndex p` and its most significant bit comes first (rule R51). -/
theorem firstOperand_bit (v : Value) {p w : Nat} (hw : w ≤ 8) {j : Nat} (hj : j < 8) :
    (firstOperand v p w).getLsbD (7 - j) =
      (decide (offsetIndex p ≤ j ∧ j < offsetIndex p + w) && v.getLsbD (w - 1 - (j - offsetIndex p))) := by
  have ho : offsetIndex p < 8 := Nat.mod_lt _ (by omega)
  unfold firstOperand
  split
  · next hf =>
    have hf' : offsetIndex p + w ≤ 8 := hf
    rw [BitVec.getLsbD_shiftLeft, masked_getLsbD v hw]
    by_cases h : offsetIndex p ≤ j ∧ j < offsetIndex p + w
    · have e1 : 7 - j - fitShift p w = w - 1 - (j - offsetIndex p) := by unfold fitShift; omega
      have e2 : ¬ 7 - j < fitShift p w := by unfold fitShift; omega
      have e3 : w - 1 - (j - offsetIndex p) < w := by omega
      have e4 : 7 - j < 8 := by omega
      simp [e1, e2, e3, e4, h]
    · have : 7 - j < fitShift p w ∨ ¬ 7 - j - fitShift p w < w := by unfold fitShift; omega
      rcases this with e | e <;> simp [e, h]
  · next hf =>
    have hf' : ¬ offsetIndex p + w ≤ 8 := hf
    rw [BitVec.getLsbD_ushiftRight, masked_getLsbD v hw]
    by_cases h : offsetIndex p ≤ j ∧ j < offsetIndex p + w
    · have e1 : spillage p w + (7 - j) = w - 1 - (j - offsetIndex p) := by unfold spillage; omega
      have e3 : w - 1 - (j - offsetIndex p) < w := by omega
      simp [e1, e3, h]
    · have e : ¬ spillage p w + (7 - j) < w := by unfold spillage; omega
      simp [e, h]

/-- The bits that spill into the next byte: stream bits `0` to `spillage - 1` of it (rule R86). -/
theorem secondOperand_bit (v : Value) {p w : Nat} (hw : w ≤ 8) (hs : ¬ fits p w) {j : Nat} (hj : j < 8) :
    (secondOperand v p w).getLsbD (7 - j) =
      (decide (j < spillage p w) && v.getLsbD (spillage p w - 1 - j)) := by
  have ho : offsetIndex p < 8 := Nat.mod_lt _ (by omega)
  have hs' : ¬ offsetIndex p + w ≤ 8 := hs
  have hsp : 1 ≤ spillage p w ∧ spillage p w < w ∧ spillage p w ≤ 7 := by unfold spillage; omega
  unfold secondOperand
  rw [BitVec.getLsbD_shiftLeft, BitVec.getLsbD_and, masked_getLsbD v hw, ofNat_mask_getLsbD]
  by_cases h : j < spillage p w
  · have e1 : 7 - j - (8 - spillage p w) = spillage p w - 1 - j := by omega
    have e2 : ¬ 7 - j < 8 - spillage p w := by omega
    have e3 : spillage p w - 1 - j < w := by omega
    have e4 : spillage p w - 1 - j < 8 := by omega
    have e5 : spillage p w - 1 - j < spillage p w := by omega
    have e6 : 7 - j < 8 := by omega
    simp [e1, e2, e3, e4, e5, e6, h]
  · have e : 7 - j < 8 - spillage p w := by omega
    simp [e, h]

/-- The fit case extracts the field's bits, the most significant first (rule R103). -/
theorem fitValue_bit (b : Byte) {p w : Nat} (hf : fits p w) (k : Nat) :
    (fitValue b p w).getLsbD k = (decide (k < w) && b.getLsbD (7 - (offsetIndex p + (w - 1 - k)))) := by
  have hf' : offsetIndex p + w ≤ 8 := hf
  unfold fitValue
  rw [BitVec.getLsbD_and, BitVec.getLsbD_ushiftRight, ofNat_mask_getLsbD]
  by_cases h : k < w
  · have e1 : fitShift p w + k = 7 - (offsetIndex p + (w - 1 - k)) := by unfold fitShift; omega
    have e2 : k < 8 := by omega
    simp [h, e1, e2]
  · simp [h]

/-- The spill case takes the field's high bits from the first byte and its low bits from the second (rule R104). -/
theorem spillValue_bit (b0 b1 : Byte) {p w : Nat} (hw : w ≤ 8) (hs : ¬ fits p w) (k : Nat) :
    (spillValue b0 b1 p w).getLsbD k =
      (decide (k < w) &&
        (if offsetIndex p + (w - 1 - k) < 8 then b0.getLsbD (7 - (offsetIndex p + (w - 1 - k)))
         else b1.getLsbD (7 - (offsetIndex p + (w - 1 - k) - 8)))) := by
  have ho : offsetIndex p < 8 := Nat.mod_lt _ (by omega)
  have hs' : ¬ offsetIndex p + w ≤ 8 := hs
  unfold spillValue highPart lowPart
  simp only [BitVec.getLsbD_or, BitVec.getLsbD_and, BitVec.getLsbD_setWidth, BitVec.getLsbD_shiftLeft,
    BitVec.getLsbD_ushiftRight, ofNat_mask_getLsbD]
  by_cases h : k < w
  · have e2 : k < 8 := by omega
    have e3 : k < 16 := by omega
    by_cases hk : k < spillage p w
    · have e1 : ¬ offsetIndex p + (w - 1 - k) < 8 := by unfold spillage at hk; omega
      have e4 : 8 - spillage p w + k = 7 - (offsetIndex p + (w - 1 - k) - 8) := by unfold spillage at hk ⊢; omega
      simp [h, hk, e1, e2, e3, e4]
    · have e1 : offsetIndex p + (w - 1 - k) < 8 := by unfold spillage at hk; omega
      have e4 : k - spillage p w = 7 - (offsetIndex p + (w - 1 - k)) := by unfold spillage at hk ⊢; omega
      have e5 : ¬ 8 - spillage p w + k < 8 := by omega
      have e6 : k - spillage p w < 16 := by omega
      have e7 : b1.getLsbD (8 - spillage p w + k) = false := BitVec.getLsbD_of_ge b1 _ (by omega)
      simp [h, hk, e1, e2, e3, e4, e7]
      omega
  · simp [h]

/-- An extracted value is below `2^w` (rule R106). -/
theorem fitValue_le_mask (b : Byte) {p w : Nat} (hw : w ≤ 8) : (fitValue b p w).toNat ≤ mask w := by
  unfold fitValue
  rw [BitVec.toNat_and, BitVec.toNat_ofNat, Nat.mod_eq_of_lt (by simpa using mask_lt hw)]
  exact Nat.and_le_right

theorem spillValue_le_mask (b0 b1 : Byte) {p w : Nat} (hw : w ≤ 8) : (spillValue b0 b1 p w).toNat ≤ mask w := by
  have hm := mask_lt hw
  have h2 : mask w < 2 ^ w := by have := Nat.two_pow_pos w; unfold mask; omega
  have hi : (highPart b0 p w).toNat < 2 ^ w := by
    unfold highPart
    rw [BitVec.toNat_setWidth, BitVec.toNat_and, BitVec.toNat_ofNat, Nat.mod_eq_of_lt (b := 2 ^ 16) (by omega)]
    exact lt_of_le_of_lt ((Nat.mod_le _ _).trans Nat.and_le_right) h2
  have lo : (lowPart b1 p w).toNat < 2 ^ w := by
    unfold lowPart
    rw [BitVec.toNat_and, BitVec.toNat_ofNat, Nat.mod_eq_of_lt (b := 2 ^ 8) (by omega)]
    exact lt_of_le_of_lt Nat.and_le_right h2
  have := Nat.or_lt_two_pow hi lo
  unfold spillValue mask
  rw [BitVec.toNat_or]
  omega

/-! ### The operand checks -/

theorem operandError_none {w n len : Nat} :
    operandError w n len = none ↔ widthValid w ∧ bytesNeeded w n ≤ len := by
  unfold operandError widthValid
  split
  · simp; omega
  · split
    · simp; omega
    · simp; omega

theorem operandError_invalidBitWidth {w n len : Nat} :
    operandError w n len = some .invalidBitWidth ↔ ¬ widthValid w := by
  unfold operandError widthValid
  split
  · simp; omega
  · split
    · simp; omega
    · simp; omega

theorem operandError_bufferTooSmall {w n len : Nat} :
    operandError w n len = some .bufferTooSmall ↔ widthValid w ∧ len < bytesNeeded w n := by
  unfold operandError widthValid
  split
  · simp; omega
  · split
    · simp; omega
    · simp; omega

end Sys2Proof.Machine
end

