-- ==== Sys2Proof/Laws/State.lean ====
section
/-! SUPPORT. One lemma per field of State per update of it, each true by rfl, so that no proof unfolds a record
update. -/

namespace Sys2Proof.Machine

/-! ### accept -/

@[simp] theorem accept_params (c : Instr) (s : State) : (accept c s).params = s.params := rfl
@[simp] theorem accept_activity (c : Instr) (s : State) : (accept c s).activity = .busy .check := rfl
@[simp] theorem accept_op (c : Instr) (s : State) : (accept c s).op = c.opCode := rfl
@[simp] theorem accept_w (c : Instr) (s : State) : (accept c s).w = c.bitWidth := rfl
@[simp] theorem accept_n (c : Instr) (s : State) : (accept c s).n = c.count := rfl
@[simp] theorem accept_len (c : Instr) (s : State) : (accept c s).len = c.bufLen := rfl
@[simp] theorem accept_i (c : Instr) (s : State) : (accept c s).i = s.i := rfl
@[simp] theorem accept_bitpos (c : Instr) (s : State) : (accept c s).bitpos = s.bitpos := rfl
@[simp] theorem accept_src (c : Instr) (s : State) : (accept c s).src = s.src := rfl
@[simp] theorem accept_buf (c : Instr) (s : State) : (accept c s).buf = s.buf := rfl
@[simp] theorem accept_dst (c : Instr) (s : State) : (accept c s).dst = s.dst := rfl
@[simp] theorem accept_response (c : Instr) (s : State) : (accept c s).response = none := rfl
@[simp] theorem accept_agenda (c : Instr) (s : State) : (accept c s).agenda = s.agenda := rfl
@[simp] theorem accept_resetIn (c : Instr) (s : State) : (accept c s).resetIn = s.resetIn := rfl

/-! ### startLoop -/

@[simp] theorem startLoop_params (s : State) : (startLoop s).params = s.params := rfl
@[simp] theorem startLoop_activity (s : State) : (startLoop s).activity = s.activity := rfl
@[simp] theorem startLoop_op (s : State) : (startLoop s).op = s.op := rfl
@[simp] theorem startLoop_w (s : State) : (startLoop s).w = s.w := rfl
@[simp] theorem startLoop_n (s : State) : (startLoop s).n = s.n := rfl
@[simp] theorem startLoop_len (s : State) : (startLoop s).len = s.len := rfl
@[simp] theorem startLoop_i (s : State) : (startLoop s).i = 0 := rfl
@[simp] theorem startLoop_bitpos (s : State) : (startLoop s).bitpos = 0 := rfl
@[simp] theorem startLoop_src (s : State) : (startLoop s).src = s.src := rfl
@[simp] theorem startLoop_buf (s : State) : (startLoop s).buf = s.buf := rfl
@[simp] theorem startLoop_dst (s : State) : (startLoop s).dst = s.dst := rfl
@[simp] theorem startLoop_response (s : State) : (startLoop s).response = s.response := rfl
@[simp] theorem startLoop_agenda (s : State) : (startLoop s).agenda = s.agenda := rfl
@[simp] theorem startLoop_resetIn (s : State) : (startLoop s).resetIn = s.resetIn := rfl

/-! ### advance -/

@[simp] theorem advance_params (s : State) : (advance s).params = s.params := rfl
@[simp] theorem advance_activity (s : State) : (advance s).activity = s.activity := rfl
@[simp] theorem advance_op (s : State) : (advance s).op = s.op := rfl
@[simp] theorem advance_w (s : State) : (advance s).w = s.w := rfl
@[simp] theorem advance_n (s : State) : (advance s).n = s.n := rfl
@[simp] theorem advance_len (s : State) : (advance s).len = s.len := rfl
@[simp] theorem advance_i (s : State) : (advance s).i = s.i + 1 := rfl
@[simp] theorem advance_bitpos (s : State) : (advance s).bitpos = s.bitpos + s.w.setWidth 35 := rfl
@[simp] theorem advance_src (s : State) : (advance s).src = s.src := rfl
@[simp] theorem advance_buf (s : State) : (advance s).buf = s.buf := rfl
@[simp] theorem advance_dst (s : State) : (advance s).dst = s.dst := rfl
@[simp] theorem advance_response (s : State) : (advance s).response = s.response := rfl
@[simp] theorem advance_agenda (s : State) : (advance s).agenda = s.agenda := rfl
@[simp] theorem advance_resetIn (s : State) : (advance s).resetIn = s.resetIn := rfl

/-! ### deliver -/

@[simp] theorem deliver_params (st : Status) (info : Nat) (s : State) : (deliver st info s).params = s.params := rfl
@[simp] theorem deliver_activity (st : Status) (info : Nat) (s : State) : (deliver st info s).activity = .idle := rfl
@[simp] theorem deliver_op (st : Status) (info : Nat) (s : State) : (deliver st info s).op = s.op := rfl
@[simp] theorem deliver_w (st : Status) (info : Nat) (s : State) : (deliver st info s).w = s.w := rfl
@[simp] theorem deliver_n (st : Status) (info : Nat) (s : State) : (deliver st info s).n = s.n := rfl
@[simp] theorem deliver_len (st : Status) (info : Nat) (s : State) : (deliver st info s).len = s.len := rfl
@[simp] theorem deliver_i (st : Status) (info : Nat) (s : State) : (deliver st info s).i = s.i := rfl
@[simp] theorem deliver_bitpos (st : Status) (info : Nat) (s : State) : (deliver st info s).bitpos = s.bitpos := rfl
@[simp] theorem deliver_src (st : Status) (info : Nat) (s : State) : (deliver st info s).src = s.src := rfl
@[simp] theorem deliver_buf (st : Status) (info : Nat) (s : State) : (deliver st info s).buf = s.buf := rfl
@[simp] theorem deliver_dst (st : Status) (info : Nat) (s : State) : (deliver st info s).dst = s.dst := rfl
@[simp] theorem deliver_response (st : Status) (info : Nat) (s : State) : (deliver st info s).response = some { status := st, result := resultOf info } := rfl
@[simp] theorem deliver_agenda (st : Status) (info : Nat) (s : State) : (deliver st info s).agenda = s.agenda := rfl
@[simp] theorem deliver_resetIn (st : Status) (info : Nat) (s : State) : (deliver st info s).resetIn = s.resetIn := rfl

/-! ### performReset -/

@[simp] theorem performReset_params (s : State) : (performReset s).params = s.params := rfl
@[simp] theorem performReset_activity (s : State) : (performReset s).activity = .idle := rfl
@[simp] theorem performReset_op (s : State) : (performReset s).op = 0 := rfl
@[simp] theorem performReset_w (s : State) : (performReset s).w = 0 := rfl
@[simp] theorem performReset_n (s : State) : (performReset s).n = 0 := rfl
@[simp] theorem performReset_len (s : State) : (performReset s).len = 0 := rfl
@[simp] theorem performReset_i (s : State) : (performReset s).i = 0 := rfl
@[simp] theorem performReset_bitpos (s : State) : (performReset s).bitpos = 0 := rfl
@[simp] theorem performReset_src (s : State) : (performReset s).src = s.src := rfl
@[simp] theorem performReset_buf (s : State) : (performReset s).buf = s.buf := rfl
@[simp] theorem performReset_dst (s : State) : (performReset s).dst = s.dst := rfl
@[simp] theorem performReset_response (s : State) : (performReset s).response = none := rfl
@[simp] theorem performReset_agenda (s : State) : (performReset s).agenda = s.agenda := rfl
@[simp] theorem performReset_resetIn (s : State) : (performReset s).resetIn = none := rfl

/-! ### goto -/

@[simp] theorem goto_params (s : State) (p : Point) : (s.goto p).params = s.params := rfl
@[simp] theorem goto_activity (s : State) (p : Point) : (s.goto p).activity = .busy p := rfl
@[simp] theorem goto_op (s : State) (p : Point) : (s.goto p).op = s.op := rfl
@[simp] theorem goto_w (s : State) (p : Point) : (s.goto p).w = s.w := rfl
@[simp] theorem goto_n (s : State) (p : Point) : (s.goto p).n = s.n := rfl
@[simp] theorem goto_len (s : State) (p : Point) : (s.goto p).len = s.len := rfl
@[simp] theorem goto_i (s : State) (p : Point) : (s.goto p).i = s.i := rfl
@[simp] theorem goto_bitpos (s : State) (p : Point) : (s.goto p).bitpos = s.bitpos := rfl
@[simp] theorem goto_src (s : State) (p : Point) : (s.goto p).src = s.src := rfl
@[simp] theorem goto_buf (s : State) (p : Point) : (s.goto p).buf = s.buf := rfl
@[simp] theorem goto_dst (s : State) (p : Point) : (s.goto p).dst = s.dst := rfl
@[simp] theorem goto_response (s : State) (p : Point) : (s.goto p).response = s.response := rfl
@[simp] theorem goto_agenda (s : State) (p : Point) : (s.goto p).agenda = s.agenda := rfl
@[simp] theorem goto_resetIn (s : State) (p : Point) : (s.goto p).resetIn = s.resetIn := rfl

/-! ### takeResponse -/

@[simp] theorem takeResponse_params (s : State) : (takeResponse s).params = s.params := rfl
@[simp] theorem takeResponse_activity (s : State) : (takeResponse s).activity = s.activity := rfl
@[simp] theorem takeResponse_op (s : State) : (takeResponse s).op = s.op := rfl
@[simp] theorem takeResponse_w (s : State) : (takeResponse s).w = s.w := rfl
@[simp] theorem takeResponse_n (s : State) : (takeResponse s).n = s.n := rfl
@[simp] theorem takeResponse_len (s : State) : (takeResponse s).len = s.len := rfl
@[simp] theorem takeResponse_i (s : State) : (takeResponse s).i = s.i := rfl
@[simp] theorem takeResponse_bitpos (s : State) : (takeResponse s).bitpos = s.bitpos := rfl
@[simp] theorem takeResponse_src (s : State) : (takeResponse s).src = s.src := rfl
@[simp] theorem takeResponse_buf (s : State) : (takeResponse s).buf = s.buf := rfl
@[simp] theorem takeResponse_dst (s : State) : (takeResponse s).dst = s.dst := rfl
@[simp] theorem takeResponse_response (s : State) : (takeResponse s).response = none := rfl
@[simp] theorem takeResponse_agenda (s : State) : (takeResponse s).agenda = s.agenda := rfl
@[simp] theorem takeResponse_resetIn (s : State) : (takeResponse s).resetIn = s.resetIn := rfl

/-! ### presentWord -/

@[simp] theorem presentWord_params (s : State) (word : CmdWord) : (presentWord s word).params = s.params := rfl
@[simp] theorem presentWord_activity (s : State) (word : CmdWord) : (presentWord s word).activity = .idle := rfl
@[simp] theorem presentWord_op (s : State) (word : CmdWord) : (presentWord s word).op = s.op := rfl
@[simp] theorem presentWord_w (s : State) (word : CmdWord) : (presentWord s word).w = s.w := rfl
@[simp] theorem presentWord_n (s : State) (word : CmdWord) : (presentWord s word).n = s.n := rfl
@[simp] theorem presentWord_len (s : State) (word : CmdWord) : (presentWord s word).len = s.len := rfl
@[simp] theorem presentWord_i (s : State) (word : CmdWord) : (presentWord s word).i = s.i := rfl
@[simp] theorem presentWord_bitpos (s : State) (word : CmdWord) : (presentWord s word).bitpos = s.bitpos := rfl
@[simp] theorem presentWord_src (s : State) (word : CmdWord) : (presentWord s word).src = s.src := rfl
@[simp] theorem presentWord_buf (s : State) (word : CmdWord) : (presentWord s word).buf = s.buf := rfl
@[simp] theorem presentWord_dst (s : State) (word : CmdWord) : (presentWord s word).dst = s.dst := rfl
@[simp] theorem presentWord_response (s : State) (word : CmdWord) : (presentWord s word).response = s.response := rfl
@[simp] theorem presentWord_agenda (s : State) (word : CmdWord) : (presentWord s word).agenda = .issue word :: s.agenda := rfl
@[simp] theorem presentWord_resetIn (s : State) (word : CmdWord) : (presentWord s word).resetIn = none := rfl

/-! ### An error, an OK response and the entry of PACK's loop are these same updates -/

@[simp] theorem raise_eq_deliver (st : Status) (info : Nat) (s : State) : raise st info s = deliver st info s := rfl
@[simp] theorem respondOk_eq_deliver (res : Nat) (s : State) : respondOk res s = deliver .ok res s := rfl
@[simp] theorem enterPackLoop_eq_goto (s : State) : enterPackLoop s = (startLoop s).goto .packSource := rfl

end Sys2Proof.Machine
end

