-- ==== Sys2Proof/Laws/Ops.lean ====
section
/-! SUPPORT. One lemma for each shared operation, saying everything it can do: the checked accesses, the
read-modify-write, validation and the element loop. -/

namespace Sys2Proof.Machine

/-! ### Sequencing -/

@[simp] theorem andThen_next {α β : Type} (a : α) (f : α → Result β) : andThen (.next a) f = f a := rfl
@[simp] theorem andThen_fault {α β : Type} (e : Fault) (f : α → Result β) : andThen (.fault e) f = .fault e := rfl
@[simp] theorem andThen_refused {α β : Type} (e : Refusal) (f : α → Result β) : andThen (.refused e) f = .refused e := rfl

/-- A sequence answers only where both parts do. -/
theorem andThen_eq_next {α β : Type} {o : Result α} {f : α → Result β} {b : β} :
    andThen o f = .next b ↔ ∃ a, o = .next a ∧ f a = .next b := by
  cases o <;> simp [andThen]

/-! ### Checked accesses -/

theorem readSrc_eq_next {s : State} {k : Nat} {v : Value} :
    readSrc s k = .next v ↔ k < s.params.valCap ∧ v = s.srcWord k := by
  unfold readSrc; split <;> simp_all [eq_comm]

theorem readBuf_eq_next {s : State} {k : Nat} {b : Byte} :
    readBuf s k = .next b ↔ k < s.params.bufCap ∧ b = s.bufByte k := by
  unfold readBuf; split <;> simp_all [eq_comm]

theorem writeSrc_eq_next {s t : State} {k : Nat} {v : Value} :
    writeSrc s k v = .next t ↔
      k < s.params.valCap ∧ t = { s with src := s.src.write Config.unwrittenValue k v } := by
  unfold writeSrc; split <;> simp_all [eq_comm]

theorem writeBuf_eq_next {s t : State} {k : Nat} {b : Byte} :
    writeBuf s k b = .next t ↔
      k < s.params.bufCap ∧ t = { s with buf := s.buf.write Config.unwrittenByte k b } := by
  unfold writeBuf; split <;> simp_all [eq_comm]

theorem writeDst_eq_next {s t : State} {k : Nat} {v : Value} :
    writeDst s k v = .next t ↔
      k < s.params.valCap ∧ t = { s with dst := s.dst.write Config.unwrittenValue k v } := by
  unfold writeDst; split <;> simp_all [eq_comm]

theorem orBuf_eq_next {s t : State} {k : Nat} {x : Byte} :
    orBuf s k x = .next t ↔
      k < s.params.bufCap ∧ t = { s with buf := s.buf.write Config.unwrittenByte k (s.bufByte k ||| x) } := by
  unfold orBuf
  rw [andThen_eq_next]
  simp only [readBuf_eq_next, writeBuf_eq_next]
  aesop

/-! ### Cells after a write -/

theorem bufByte_write (s : State) (k j : Nat) (b : Byte) :
    State.bufByte { s with buf := s.buf.write Config.unwrittenByte k b } j = if j = k then b else s.bufByte j :=
  Memory.read_write _ _ _ _ _

theorem dstWord_write (s : State) (k j : Nat) (v : Value) :
    State.dstWord { s with dst := s.dst.write Config.unwrittenValue k v } j = if j = k then v else s.dstWord j :=
  Memory.read_write _ _ _ _ _

theorem srcWord_write (s : State) (k j : Nat) (v : Value) :
    State.srcWord { s with src := s.src.write Config.unwrittenValue k v } j = if j = k then v else s.srcWord j :=
  Memory.read_write _ _ _ _ _

/-- The bits of BUF after a read-modify-write of byte `k` with `x` (rule R39). -/
theorem bufBit_or (s : State) (k p : Nat) (x : Byte) :
    State.bufBit { s with buf := s.buf.write Config.unwrittenByte k (s.bufByte k ||| x) } p =
      (s.bufBit p || (decide (p / 8 = k) && x.getLsbD (7 - p % 8))) := by
  unfold State.bufBit
  rw [bufByte_write]
  by_cases h : p / 8 = k
  · simp [h]
  · simp [h]

/-! ### Validation (rules R81, R101, R146, U7) -/

/-- Validation lets the body run exactly where the operands are valid, the buffer is long enough and the memory
exists. -/
theorem validated_body {s : State} {body : State → Result State} (hw : widthValid s.w.toNat)
    (hl : s.needed ≤ s.len.toNat) (hc : s.offersExisting) : validated s body = body s := by
  have h : operandError s.w.toNat s.n.toNat s.len.toNat = none := operandError_none.mpr ⟨hw, hl⟩
  simp [validated, h, hc]

theorem validated_invalidBitWidth {s : State} {body : State → Result State} (hw : ¬ widthValid s.w.toNat) :
    validated s body = .next (deliver .invalidBitWidth s.needed s) := by
  have h := operandError_invalidBitWidth (n := s.n.toNat) (len := s.len.toNat) |>.mpr hw
  simp [validated, h]

theorem validated_bufferTooSmall {s : State} {body : State → Result State} (hw : widthValid s.w.toNat)
    (hl : s.len.toNat < s.needed) : validated s body = .next (deliver .bufferTooSmall s.needed s) := by
  have h : operandError s.w.toNat s.n.toNat s.len.toNat = some .bufferTooSmall :=
    operandError_bufferTooSmall.mpr ⟨hw, hl⟩
  simp [validated, h]

theorem validated_beyondCapacity {s : State} {body : State → Result State} (hw : widthValid s.w.toNat)
    (hl : s.needed ≤ s.len.toNat) (hc : ¬ s.offersExisting) : validated s body = .refused .beyondCapacity := by
  have h : operandError s.w.toNat s.n.toNat s.len.toNat = none := operandError_none.mpr ⟨hw, hl⟩
  simp [validated, h, hc]

/-- The four ways a validation can end. -/
theorem validated_cases (s : State) (body : State → Result State) :
    (¬ widthValid s.w.toNat ∧ validated s body = .next (deliver .invalidBitWidth s.needed s)) ∨
    (widthValid s.w.toNat ∧ s.len.toNat < s.needed ∧
      validated s body = .next (deliver .bufferTooSmall s.needed s)) ∨
    (widthValid s.w.toNat ∧ s.needed ≤ s.len.toNat ∧ ¬ s.offersExisting ∧
      validated s body = .refused .beyondCapacity) ∨
    (widthValid s.w.toNat ∧ s.needed ≤ s.len.toNat ∧ s.offersExisting ∧ validated s body = body s) := by
  by_cases hw : widthValid s.w.toNat
  · by_cases hl : s.len.toNat < s.needed
    · exact .inr (.inl ⟨hw, hl, validated_bufferTooSmall hw hl⟩)
    · by_cases hc : s.offersExisting
      · exact .inr (.inr (.inr ⟨hw, not_lt.mp hl, hc, validated_body hw (not_lt.mp hl) hc⟩))
      · exact .inr (.inr (.inl ⟨hw, not_lt.mp hl, hc, validated_beyondCapacity hw (not_lt.mp hl) hc⟩))
  · exact .inl ⟨hw, validated_invalidBitWidth hw⟩

/-! ### The element loop -/

@[simp] theorem elements_zero (f : State → Result State) (s : State) : elements f 0 s = .next s := rfl
theorem elements_succ (f : State → Result State) (k : Nat) (s : State) :
    elements f (k + 1) s = andThen (f s) (elements f k) := rfl

/-- What every element step keeps, the element steps together keep. -/
theorem elements_keep {f : State → Result State} {P : State → Prop} (hf : ∀ s t, f s = .next t → P s → P t)
    (k : Nat) {s t : State} (h : elements f k s = .next t) (hs : P s) : P t := by
  induction k generalizing s with
  | zero => simp only [elements_zero, Host.Outcome.next.injEq] at h; exact h ▸ hs
  | succ k ih =>
    obtain ⟨s1, h1, h2⟩ := andThen_eq_next.mp (elements_succ f k s ▸ h)
    exact ih h2 (hf s s1 h1 hs)

end Sys2Proof.Machine
end

