-- ==== Sys2Proof/Laws/Cursor.lean ====
section
/-! SUPPORT. The cursor of an element loop: it stands at `BITPOS = I·W`, never wraps (rule R15), and every byte of the
current element exists (rules R41, R90). -/

namespace Sys2Proof.Machine

/-- What an element step may rely on: the operands have passed validation and the capacity duty, and the cursor stands
at the element `I < N`. -/
structure AtElement (s : State) : Prop where
  width : widthValid s.w.toNat
  fitsBuf : s.needed ≤ s.params.bufCap
  fitsVal : s.n.toNat ≤ s.params.valCap
  index : s.i.toNat < s.n.toNat
  cursor : s.bitpos.toNat = s.i.toNat * s.w.toNat

variable {s : State}

theorem AtElement.first_lt (h : AtElement s) : byteIndex s.bitpos.toNat < s.params.bufCap := by
  have h1 := h.width
  have := element_end_le (w := s.w.toNat) h.index
  rw [h.cursor]
  exact lt_of_lt_of_le (div_lt_bytesNeeded (by omega)) h.fitsBuf

theorem AtElement.second_lt (h : AtElement s) (hs : ¬ fits s.bitpos.toNat s.w.toNat) :
    byteIndex s.bitpos.toNat + 1 < s.params.bufCap := by
  have h1 := h.width
  have h2 := element_end_le (w := s.w.toNat) h.index
  have h3 : ¬ s.bitpos.toNat % 8 + s.w.toNat ≤ 8 := hs
  have h4 : byteIndex s.bitpos.toNat + 1 = (s.bitpos.toNat + s.w.toNat - 1) / 8 := by
    unfold byteIndex; omega
  have h5 := h.cursor
  rw [h4]
  exact lt_of_lt_of_le (div_lt_bytesNeeded (by omega)) h.fitsBuf

theorem AtElement.source_lt (h : AtElement s) : s.i.toNat < s.params.valCap := lt_of_lt_of_le h.index h.fitsVal

/-- `I` never wraps (rule R15). -/
theorem AtElement.next_index (h : AtElement s) : (s.i + 1).toNat = s.i.toNat + 1 := by
  have h1 := h.index
  have h2 : s.n.toNat < 2 ^ 32 := s.n.isLt
  rw [BitVec.toNat_add]
  have : (1 : CountOperand).toNat = 1 := rfl
  rw [this, Nat.mod_eq_of_lt (by omega)]

/-- `BITPOS` never wraps (rule R15). -/
theorem AtElement.next_cursor (h : AtElement s) :
    (s.bitpos + s.w.setWidth 35).toNat = (s.i.toNat + 1) * s.w.toNat := by
  have h1 := h.index
  have h2 : s.n.toNat < 2 ^ 32 := s.n.isLt
  have h3 := h.width
  have h4 : (s.i.toNat + 1) * s.w.toNat ≤ (2 ^ 32 - 1) * 8 := Nat.mul_le_mul (by omega) h3.2
  have h5 : (s.w.setWidth 35).toNat = s.w.toNat := by
    rw [BitVec.toNat_setWidth, Nat.mod_eq_of_lt (by omega)]
  have h6 : s.i.toNat * s.w.toNat + s.w.toNat = (s.i.toNat + 1) * s.w.toNat := by ring
  rw [BitVec.toNat_add, h5, h.cursor, h6, Nat.mod_eq_of_lt (by omega)]

/-- After an element step the cursor stands at the next element, or at the end. -/
theorem AtElement.advance (h : AtElement s) {s1 : State} (hp : s1.params = s.params) (hw : s1.w = s.w)
    (hn : s1.n = s.n) (hi : s1.i = s.i + 1) (hb : s1.bitpos = s.bitpos + s.w.setWidth 35)
    (hlt : s.i.toNat + 1 < s.n.toNat) : AtElement s1 where
  width := hw ▸ h.width
  fitsBuf := by rw [State.needed, hw, hn, hp]; exact h.fitsBuf
  fitsVal := by rw [hn, hp]; exact h.fitsVal
  index := by rw [hi, hn, h.next_index]; exact hlt
  cursor := by rw [hb, hi, hw, h.next_index, h.next_cursor]

/-- Where the element loop starts, if there is an element at all. -/
theorem atElement_start (hw : widthValid s.w.toNat) (hl : s.needed ≤ s.len.toNat) (hc : s.offersExisting)
    (hn : 0 < s.n.toNat) : AtElement (startLoop s) where
  width := hw
  fitsBuf := hl.trans hc.1
  fitsVal := hc.2
  index := by simpa using hn
  cursor := by simp

end Sys2Proof.Machine
end

