-- ==== Sys2Proof/Laws/Pack.lean ====
section
/-! SUPPORT. PACK: what one element step does to BUF, bit by bit, and what the element loop does (rules R83 to R91); the
strict pre-scan (rule R82). -/

namespace Sys2Proof.Machine

/-- BUF after the element step at the cursor: one byte changed in the fit case, two in the spill case. -/
def packedStep (s : State) : Memory Byte :=
  let p := s.bitpos.toNat
  let w := s.w.toNat
  let v := s.srcWord s.i.toNat
  let m := s.buf.write Config.unwrittenByte (byteIndex p) (s.bufByte (byteIndex p) ||| firstOperand v p w)
  if fits p w then m
  else m.write Config.unwrittenByte (byteIndex p + 1)
    (m.read Config.unwrittenByte (byteIndex p + 1) ||| secondOperand v p w)

/-- An element step runs, changes BUF as `packedStep` says and advances the cursor; nothing else. -/
theorem packElement_next {s : State} (h : AtElement s) :
    packElement s = .next (advance { s with buf := packedStep s }) := by
  have hsrc : readSrc s s.i.toNat = .next (s.srcWord s.i.toNat) := readSrc_eq_next.mpr ⟨h.source_lt, rfl⟩
  have h1 := fun x => orBuf_eq_next (x := x).mpr ⟨h.first_lt, rfl⟩
  unfold packElement packedStep
  rw [hsrc]
  by_cases hf : fits s.bitpos.toNat s.w.toNat
  · simp only [andThen_next, if_pos hf, h1]
  · have h2 := fun (m : Memory Byte) (x : Byte) =>
      orBuf_eq_next (s := { s with buf := m }) (x := x).mpr ⟨h.second_lt hf, rfl⟩
    simp only [andThen_next, if_neg hf, h1, h2]
    rfl

/-- Bit by bit, the element step ORs the field into the positions `[BITPOS, BITPOS + W)` and leaves every other
position alone (rules R51, R84, R86). -/
theorem packedStep_bit {s : State} (hw : widthValid s.w.toNat) (p : Nat) :
    State.bufBit { s with buf := packedStep s } p =
      (s.bufBit p || (decide (s.bitpos.toNat ≤ p ∧ p < s.bitpos.toNat + s.w.toNat) &&
        (s.srcWord s.i.toNat).getLsbD (s.w.toNat - 1 - (p - s.bitpos.toNat)))) := by
  have hj : p % 8 < 8 := Nat.mod_lt _ (by omega)
  have hfirst := firstOperand_bit (s.srcWord s.i.toNat) (p := s.bitpos.toNat) hw.2 hj
  unfold packedStep
  by_cases hf : fits s.bitpos.toNat s.w.toNat
  · simp only [if_pos hf]
    rw [bufBit_or, hfirst]
    have hf' : s.bitpos.toNat % 8 + s.w.toNat ≤ 8 := hf
    by_cases hin : s.bitpos.toNat ≤ p ∧ p < s.bitpos.toNat + s.w.toNat
    · have e1 : p / 8 = byteIndex s.bitpos.toNat := by unfold byteIndex; omega
      have e2 : offsetIndex s.bitpos.toNat ≤ p % 8 ∧ p % 8 < offsetIndex s.bitpos.toNat + s.w.toNat := by
        unfold offsetIndex; omega
      have e3 : p % 8 - offsetIndex s.bitpos.toNat = p - s.bitpos.toNat := by unfold offsetIndex; omega
      rw [e3]
      simp [hin, e1, e2]
    · have e : ¬ (p / 8 = byteIndex s.bitpos.toNat ∧ offsetIndex s.bitpos.toNat ≤ p % 8 ∧
          p % 8 < offsetIndex s.bitpos.toNat + s.w.toNat) := by unfold byteIndex offsetIndex; omega
      simp only [hin, decide_false, Bool.false_and, Bool.or_false]
      rcases not_and_or.mp e with e1 | e1 <;> simp [e1]
  · simp only [if_neg hf]
    have hf' : ¬ s.bitpos.toNat % 8 + s.w.toNat ≤ 8 := hf
    have hsecond := secondOperand_bit (s.srcWord s.i.toNat) (p := s.bitpos.toNat) hw.2 hf hj
    let m := s.buf.write Config.unwrittenByte (byteIndex s.bitpos.toNat)
      (s.bufByte (byteIndex s.bitpos.toNat) ||| firstOperand (s.srcWord s.i.toNat) s.bitpos.toNat s.w.toNat)
    have step2 := bufBit_or { s with buf := m } (byteIndex s.bitpos.toNat + 1) p
      (secondOperand (s.srcWord s.i.toNat) s.bitpos.toNat s.w.toNat)
    have hw8 := hw.2
    refine step2.trans ?_
    rw [bufBit_or, hfirst, hsecond, Bool.or_assoc]
    congr 1
    by_cases hin : s.bitpos.toNat ≤ p ∧ p < s.bitpos.toNat + s.w.toNat
    · by_cases e1 : p / 8 = byteIndex s.bitpos.toNat
      · have e2 : offsetIndex s.bitpos.toNat ≤ p % 8 ∧ p % 8 < offsetIndex s.bitpos.toNat + s.w.toNat := by
          unfold offsetIndex byteIndex at *; omega
        have e3 : p % 8 - offsetIndex s.bitpos.toNat = p - s.bitpos.toNat := by
          unfold offsetIndex byteIndex at *; omega
        rw [e3]
        simp [hin, e1, e2]
      · have e2 : p / 8 = byteIndex s.bitpos.toNat + 1 := by unfold byteIndex at *; omega
        have e3 : p % 8 < spillage s.bitpos.toNat s.w.toNat := by
          unfold spillage offsetIndex byteIndex at *; omega
        have e4 : spillage s.bitpos.toNat s.w.toNat - 1 - p % 8 = s.w.toNat - 1 - (p - s.bitpos.toNat) := by
          unfold spillage offsetIndex byteIndex at *; omega
        rw [e4]
        simp [hin, e2, e3]
    · have e1 : ¬ (p / 8 = byteIndex s.bitpos.toNat ∧ offsetIndex s.bitpos.toNat ≤ p % 8 ∧
          p % 8 < offsetIndex s.bitpos.toNat + s.w.toNat) := by unfold byteIndex offsetIndex; omega
      have e2 : ¬ (p / 8 = byteIndex s.bitpos.toNat + 1 ∧ p % 8 < spillage s.bitpos.toNat s.w.toNat) := by
        unfold byteIndex spillage offsetIndex; omega
      simp only [hin, decide_false, Bool.false_and]
      rw [Bool.or_eq_false_iff]
      constructor
      · rcases not_and_or.mp e1 with e | e <;> simp [e]
      · rcases not_and_or.mp e2 with e | e <;> simp [e]

/-- The bit that the packed form of SRC at width `w` has at virtual bit position `p`: of the value whose field covers
`p`, the bit that stands `p mod w` places after its most significant one (rule R51). -/
def State.sourceBit (s : State) (w p : Nat) : Bool := (s.srcWord (p / w)).getLsbD (w - 1 - p % w)

/-- The bit of the packed form inside the field at index `i`. -/
theorem sourceBit_in_field (s : State) {w i p : Nat} (hlo : i * w ≤ p) (hhi : p < i * w + w) :
    s.sourceBit w p = (s.srcWord i).getLsbD (w - 1 - (p - i * w)) := by
  have hdiv : p / w = i := by
    rw [Nat.div_eq_iff (by omega)]
    constructor
    · rw [Nat.mul_comm]; linarith [Nat.mul_comm i w]
    · have := Nat.mul_comm i w; omega
  have hmod : p % w = p - i * w := by
    have := Nat.div_add_mod p w
    rw [hdiv, Nat.mul_comm] at this
    omega
  rw [State.sourceBit, hdiv, hmod]

/-- `k` element steps of PACK from the cursor: BUF gets the packed bits of the elements `I` to `I + k - 1` ORed in, the
cursor stands `k` elements further, nothing else changes (rules R87, R91). -/
theorem elements_pack (k : Nat) {s : State} (hw : widthValid s.w.toNat) (hb : s.needed ≤ s.params.bufCap)
    (hv : s.n.toNat ≤ s.params.valCap) (hk : s.i.toNat + k ≤ s.n.toNat)
    (hc : s.bitpos.toNat = s.i.toNat * s.w.toNat) :
    ∃ m : Memory Byte,
      elements packElement k s = .next { s with
        buf := m, i := BitVec.ofNat 32 (s.i.toNat + k), bitpos := BitVec.ofNat 35 ((s.i.toNat + k) * s.w.toNat) } ∧
      ∀ p, State.bufBit { s with buf := m } p =
        (s.bufBit p || (decide (s.i.toNat * s.w.toNat ≤ p ∧ p < (s.i.toNat + k) * s.w.toNat) &&
          s.sourceBit s.w.toNat p)) := by
  induction k generalizing s with
  | zero =>
    refine ⟨s.buf, ?_, fun p => ?_⟩
    · have e1 : BitVec.ofNat 32 (s.i.toNat + 0) = s.i := by simp
      have e2 : BitVec.ofNat 35 ((s.i.toNat + 0) * s.w.toNat) = s.bitpos := by simp [← hc]
      rw [e1, e2, elements_zero]
    · have e : ¬ (s.i.toNat * s.w.toNat ≤ p ∧ p < (s.i.toNat + 0) * s.w.toNat) := by simp
      simp only [e, decide_false, Bool.false_and, Bool.or_false]
  | succ k ih =>
    have hat : AtElement s := ⟨hw, hb, hv, by omega, hc⟩
    have e1 : (s.i + 1).toNat = s.i.toNat + 1 := hat.next_index
    have e2 := hat.next_cursor
    have e3 : s.i.toNat + 1 + k = s.i.toNat + (k + 1) := by omega
    obtain ⟨m, hm, hbits⟩ := ih (s := advance { s with buf := packedStep s }) hw hb hv
      (by rw [advance_i, e1]; show s.i.toNat + 1 + k ≤ s.n.toNat; omega)
      (by rw [advance_bitpos, advance_i, e1]; exact e2)
    refine ⟨m, ?_, fun p => ?_⟩
    · rw [elements_succ, packElement_next hat, andThen_next, hm]
      simp only [advance_i, advance_w, e1, e3]
      rfl
    · have := hbits p
      simp only [advance_i, advance_w, e1, e3] at this
      refine this.trans ?_
      have hstep : (advance { s with buf := packedStep s }).bufBit p =
          State.bufBit { s with buf := packedStep s } p := rfl
      have hsrc : (advance { s with buf := packedStep s }).sourceBit s.w.toNat p = s.sourceBit s.w.toNat p := rfl
      rw [hstep, hsrc, packedStep_bit hw p, hc, Bool.or_assoc]
      congr 1
      have hmid : (s.i.toNat + 1) * s.w.toNat = s.i.toNat * s.w.toNat + s.w.toNat := by ring
      have hend : (s.i.toNat + 1) * s.w.toNat ≤ (s.i.toNat + (k + 1)) * s.w.toNat :=
        Nat.mul_le_mul_right _ (by omega)
      by_cases hin : s.i.toNat * s.w.toNat ≤ p ∧ p < s.i.toNat * s.w.toNat + s.w.toNat
      · have h1 : ¬ ((s.i.toNat + 1) * s.w.toNat ≤ p ∧ p < (s.i.toNat + (k + 1)) * s.w.toNat) := by omega
        have h2 : s.i.toNat * s.w.toNat ≤ p ∧ p < (s.i.toNat + (k + 1)) * s.w.toNat := by omega
        rw [sourceBit_in_field s hin.1 hin.2]
        simp [hin, h2]
      · have h1 : ((s.i.toNat + 1) * s.w.toNat ≤ p ∧ p < (s.i.toNat + (k + 1)) * s.w.toNat) ↔
            (s.i.toNat * s.w.toNat ≤ p ∧ p < (s.i.toNat + (k + 1)) * s.w.toNat) := by omega
        simp [hin, h1]

/-- The pre-scan from index `k`: it never leaves the memory that exists, and answers the lowest index of a value out of
range, if there is one (rule R82). -/
theorem scan_next (s : State) (count : Nat) {k : Nat} (h : k + count ≤ s.params.valCap) :
    (scan s count k = .next none ∧ ∀ j, k ≤ j → j < k + count → ¬ outOfRange (s.srcWord j) s.w.toNat) ∨
    ∃ j, k ≤ j ∧ j < k + count ∧ scan s count k = .next (some j) ∧ outOfRange (s.srcWord j) s.w.toNat ∧
      ∀ l, k ≤ l → l < j → ¬ outOfRange (s.srcWord l) s.w.toNat := by
  induction count generalizing k with
  | zero => exact .inl ⟨rfl, fun j h1 h2 => by omega⟩
  | succ count ih =>
    have hread : readSrc s k = .next (s.srcWord k) := readSrc_eq_next.mpr ⟨by omega, rfl⟩
    have heq : scan s (count + 1) k =
        if outOfRange (s.srcWord k) s.w.toNat then .next (some k) else scan s count (k + 1) := by
      simp only [scan, hread, andThen_next]
    by_cases hk : outOfRange (s.srcWord k) s.w.toNat
    · exact .inr ⟨k, le_refl k, by omega, by rw [heq, if_pos hk], hk, fun l h1 h2 => by omega⟩
    · rw [heq, if_neg hk]
      rcases ih (k := k + 1) (by omega) with ⟨h1, h2⟩ | ⟨j, h1, h2, h3, h4, h5⟩
      · refine .inl ⟨h1, fun j hj1 hj2 => ?_⟩
        rcases Nat.eq_or_lt_of_le hj1 with e | e
        · exact e ▸ hk
        · exact h2 j e (by omega)
      · refine .inr ⟨j, by omega, by omega, h3, h4, fun l hl1 hl2 => ?_⟩
        rcases Nat.eq_or_lt_of_le hl1 with e | e
        · exact e ▸ hk
        · exact h5 l e hl2

end Sys2Proof.Machine
end

