-- ==== Sys2Proof/Laws/Unpack.lean ====
section
/-! SUPPORT. UNPACK: the value one element step extracts, bit by bit, and what the element loop does to DST
(rules R102 to R108). -/

namespace Sys2Proof.Machine

/-- The field at the cursor, extracted from one byte or two (rules R103, R104). -/
def unpackedField (s : State) : Byte :=
  let p := s.bitpos.toNat
  let w := s.w.toNat
  if fits p w then fitValue (s.bufByte (byteIndex p)) p w
  else spillValue (s.bufByte (byteIndex p)) (s.bufByte (byteIndex p + 1)) p w

/-- DST after the element step at the cursor. -/
def unpackedStep (s : State) : Memory Value :=
  s.dst.write Config.unwrittenValue s.i.toNat (extendValue (unpackedField s))

/-- An element step runs, writes the field to `DST[I]` and advances the cursor; nothing else. -/
theorem unpackElement_next {s : State} (h : AtElement s) :
    unpackElement s = .next (advance { s with dst := unpackedStep s }) := by
  have h1 : readBuf s (byteIndex s.bitpos.toNat) = .next (s.bufByte (byteIndex s.bitpos.toNat)) :=
    readBuf_eq_next.mpr ⟨h.first_lt, rfl⟩
  have hw := fun v => writeDst_eq_next (v := v).mpr ⟨h.source_lt, rfl⟩
  unfold unpackElement unpackedStep unpackedField
  by_cases hf : fits s.bitpos.toNat s.w.toNat
  · simp only [if_pos hf, h1, andThen_next, hw]
  · have h2 : readBuf s (byteIndex s.bitpos.toNat + 1) = .next (s.bufByte (byteIndex s.bitpos.toNat + 1)) :=
      readBuf_eq_next.mpr ⟨h.second_lt hf, rfl⟩
    simp only [if_neg hf, h1, h2, andThen_next, hw]

/-- The extracted field holds the bits of BUF at the positions `[BITPOS, BITPOS + W)`, the most significant first
(rules R51, R103, R104). -/
theorem unpackedField_bit {s : State} (hw : widthValid s.w.toNat) (k : Nat) :
    (unpackedField s).getLsbD k =
      (decide (k < s.w.toNat) && s.bufBit (s.bitpos.toNat + (s.w.toNat - 1 - k))) := by
  unfold unpackedField
  have hw8 := hw.2
  by_cases h : k < s.w.toNat
  · by_cases hf : fits s.bitpos.toNat s.w.toNat
    · have hf' : s.bitpos.toNat % 8 + s.w.toNat ≤ 8 := hf
      simp only [if_pos hf]
      rw [fitValue_bit _ hf]
      have e1 : (s.bitpos.toNat + (s.w.toNat - 1 - k)) / 8 = byteIndex s.bitpos.toNat := by unfold byteIndex; omega
      have e2 : (s.bitpos.toNat + (s.w.toNat - 1 - k)) % 8 = offsetIndex s.bitpos.toNat + (s.w.toNat - 1 - k) := by
        unfold offsetIndex; omega
      simp [State.bufBit, h, e1, e2]
    · have hf' : ¬ s.bitpos.toNat % 8 + s.w.toNat ≤ 8 := hf
      simp only [if_neg hf]
      rw [spillValue_bit _ _ hw.2 hf]
      by_cases hk : offsetIndex s.bitpos.toNat + (s.w.toNat - 1 - k) < 8
      · have e1 : (s.bitpos.toNat + (s.w.toNat - 1 - k)) / 8 = byteIndex s.bitpos.toNat := by
          unfold byteIndex; unfold offsetIndex at hk; omega
        have e2 : (s.bitpos.toNat + (s.w.toNat - 1 - k)) % 8 = offsetIndex s.bitpos.toNat + (s.w.toNat - 1 - k) := by
          unfold offsetIndex at *; omega
        simp [State.bufBit, h, hk, e1, e2]
      · have e1 : (s.bitpos.toNat + (s.w.toNat - 1 - k)) / 8 = byteIndex s.bitpos.toNat + 1 := by
          unfold byteIndex; unfold offsetIndex at hk; omega
        have e2 : (s.bitpos.toNat + (s.w.toNat - 1 - k)) % 8 =
            offsetIndex s.bitpos.toNat + (s.w.toNat - 1 - k) - 8 := by
          unfold offsetIndex at *; omega
        simp [State.bufBit, h, hk, e1, e2]
  · by_cases hf : fits s.bitpos.toNat s.w.toNat
    · simp only [if_pos hf]; rw [fitValue_bit _ hf]; simp [h]
    · simp only [if_neg hf]; rw [spillValue_bit _ _ hw.2 hf]; simp [h]

/-- An extracted field is at most `mask(W)` (rule R106). -/
theorem unpackedField_le_mask {s : State} (hw : widthValid s.w.toNat) : (unpackedField s).toNat ≤ mask s.w.toNat := by
  unfold unpackedField
  by_cases hf : fits s.bitpos.toNat s.w.toNat
  · simp only [if_pos hf]; exact fitValue_le_mask _ hw.2
  · simp only [if_neg hf]; exact spillValue_le_mask _ _ hw.2

/-- Zero extension keeps the bits and adds zeros (rule R106). -/
theorem extendValue_getLsbD (b : Byte) (k : Nat) : (extendValue b).getLsbD k = b.getLsbD k := by
  unfold extendValue
  rw [BitVec.getLsbD_setWidth]
  by_cases h : k < 32
  · simp [h]
  · simp [h, BitVec.getLsbD_of_ge b k (by omega)]

/-- `k` element steps of UNPACK from the cursor: the words of DST at the indexes `I` to `I + k - 1` get the fields, every
other word keeps its content, the cursor stands `k` elements further, nothing else changes (rules R105, R107, R108). -/
theorem elements_unpack (k : Nat) {s : State} (hw : widthValid s.w.toNat) (hb : s.needed ≤ s.params.bufCap)
    (hv : s.n.toNat ≤ s.params.valCap) (hk : s.i.toNat + k ≤ s.n.toNat)
    (hc : s.bitpos.toNat = s.i.toNat * s.w.toNat) :
    ∃ m : Memory Value,
      elements unpackElement k s = .next { s with
        dst := m, i := BitVec.ofNat 32 (s.i.toNat + k), bitpos := BitVec.ofNat 35 ((s.i.toNat + k) * s.w.toNat) } ∧
      (∀ j, s.i.toNat ≤ j → j < s.i.toNat + k → ∀ b, (State.dstWord { s with dst := m } j).getLsbD b =
        (decide (b < s.w.toNat) && s.bufBit (j * s.w.toNat + (s.w.toNat - 1 - b)))) ∧
      (∀ j, ¬ (s.i.toNat ≤ j ∧ j < s.i.toNat + k) → State.dstWord { s with dst := m } j = s.dstWord j) := by
  induction k generalizing s with
  | zero =>
    refine ⟨s.dst, ?_, fun j h1 h2 => by omega, fun j _ => rfl⟩
    have e1 : BitVec.ofNat 32 (s.i.toNat + 0) = s.i := by simp
    have e2 : BitVec.ofNat 35 ((s.i.toNat + 0) * s.w.toNat) = s.bitpos := by simp [← hc]
    rw [e1, e2, elements_zero]
  | succ k ih =>
    have hat : AtElement s := ⟨hw, hb, hv, by omega, hc⟩
    have e1 : (s.i + 1).toNat = s.i.toNat + 1 := hat.next_index
    have e2 := hat.next_cursor
    have e3 : s.i.toNat + 1 + k = s.i.toNat + (k + 1) := by omega
    obtain ⟨m, hm, hin, hout⟩ := ih (s := advance { s with dst := unpackedStep s }) hw hb hv
      (by rw [advance_i, e1]; show s.i.toNat + 1 + k ≤ s.n.toNat; omega)
      (by rw [advance_bitpos, advance_i, e1]; exact e2)
    simp only [advance_i, advance_w, e1, e3] at hm hin hout
    have hword : ∀ j, (advance { s with dst := unpackedStep s }).dstWord j =
        if j = s.i.toNat then extendValue (unpackedField s) else s.dstWord j :=
      fun j => dstWord_write s s.i.toNat j (extendValue (unpackedField s))
    refine ⟨m, ?_, fun j h1 h2 b => ?_, fun j h => ?_⟩
    · rw [elements_succ, unpackElement_next hat, andThen_next, hm]
      rfl
    · rcases Nat.eq_or_lt_of_le h1 with e | e
      · have h3 := (hout j (by omega)).trans (hword j)
        rw [if_pos e.symm] at h3
        refine (congrArg (BitVec.getLsbD · b) h3).trans ?_
        rw [extendValue_getLsbD, unpackedField_bit hw, hc, ← e]
      · exact hin j e h2 b
    · refine (hout j (by omega)).trans ((hword j).trans ?_)
      rw [if_neg (by omega)]

end Sys2Proof.Machine
end

