-- ==== Sys2Proof/Laws/Access.lean ====
section
/-! SUPPORT. Running access by access (rules R38, R184): what the transitions of one element step do together. -/

namespace Sys2Proof.Machine

@[simp] theorem ticks_zero (s : State) : ticks 0 s = .next s := rfl

theorem ticks_goto (k : Nat) (s : State) (p : Point) :
    ticks (k + 1) (s.goto p) = andThen (tick p (s.goto p)) (ticks k) := rfl

/-- Transitions one after another. -/
theorem ticks_add (j k : Nat) (s : State) : ticks (j + k) s = andThen (ticks j s) (ticks k) := by
  induction j generalizing s with
  | zero => simp
  | succ j ih =>
    rw [Nat.add_right_comm]
    cases ha : s.activity with
    | idle =>
      cases k <;> simp [ticks, ha]
    | busy p =>
      simp only [ticks, ha]
      cases tick p s with
      | next a => simp [ih]
      | fault e => rfl
      | refused e => rfl

/-- An idle block makes no transition. -/
theorem ticks_idle (k : Nat) {s : State} (h : s.activity = .idle) : ticks k s = .next s := by
  cases k <;> simp [ticks, h]

theorem AtElement.goto {s : State} (h : AtElement s) (p : Point) : AtElement (s.goto p) := ⟨h.1, h.2, h.3, h.4, h.5⟩

/-! ### One transition at each point of an element that exists -/

variable {s : State}

theorem tick_packSource (h : AtElement s) :
    tick .packSource (s.goto .packSource) = .next (s.goto (.packFirstRead (s.srcWord s.i.toNat))) := by
  have e : readSrc (s.goto .packSource) s.i.toNat = .next (s.srcWord s.i.toNat) :=
    readSrc_eq_next.mpr ⟨h.source_lt, rfl⟩
  simp only [tick, goto_i, goto_n, if_pos h.index, e, andThen_next]
  rfl

theorem tick_packFirstRead (h : AtElement s) (v : Value) :
    tick (.packFirstRead v) (s.goto (.packFirstRead v)) =
      .next (s.goto (.packFirstWrite v (s.bufByte (byteIndex s.bitpos.toNat)))) := by
  have e : readBuf (s.goto (.packFirstRead v)) (byteIndex s.bitpos.toNat) =
      .next (s.bufByte (byteIndex s.bitpos.toNat)) := readBuf_eq_next.mpr ⟨h.first_lt, rfl⟩
  simp only [tick, goto_bitpos, e, andThen_next]
  rfl

/-- The state with BUF's byte `k` written. -/
abbrev State.putByte (s : State) (k : Nat) (b : Byte) : State :=
  { s with buf := s.buf.write Config.unwrittenByte k b }

theorem tick_packFirstWrite (h : AtElement s) (v : Value) (b : Byte) :
    tick (.packFirstWrite v b) (s.goto (.packFirstWrite v b)) =
      let t := s.putByte (byteIndex s.bitpos.toNat) (b ||| firstOperand v s.bitpos.toNat s.w.toNat)
      .next (if fits s.bitpos.toNat s.w.toNat then (advance t).goto .packSource else t.goto (.packSecondRead v)) := by
  have e := writeBuf_eq_next (s := s.goto (.packFirstWrite v b))
    (b := b ||| firstOperand v s.bitpos.toNat s.w.toNat).mpr ⟨h.first_lt, rfl⟩
  simp only [tick, goto_bitpos, goto_w, e, andThen_next]
  rfl

theorem tick_packSecondRead (h : byteIndex s.bitpos.toNat + 1 < s.params.bufCap) (v : Value) :
    tick (.packSecondRead v) (s.goto (.packSecondRead v)) =
      .next (s.goto (.packSecondWrite v (s.bufByte (byteIndex s.bitpos.toNat + 1)))) := by
  have e : readBuf (s.goto (.packSecondRead v)) (byteIndex s.bitpos.toNat + 1) =
      .next (s.bufByte (byteIndex s.bitpos.toNat + 1)) := readBuf_eq_next.mpr ⟨h, rfl⟩
  simp only [tick, goto_bitpos, e, andThen_next]
  rfl

theorem tick_packSecondWrite (h : byteIndex s.bitpos.toNat + 1 < s.params.bufCap) (v : Value) (b : Byte) :
    tick (.packSecondWrite v b) (s.goto (.packSecondWrite v b)) =
      .next ((advance (s.putByte (byteIndex s.bitpos.toNat + 1)
        (b ||| secondOperand v s.bitpos.toNat s.w.toNat))).goto .packSource) := by
  have e := writeBuf_eq_next (s := s.goto (.packSecondWrite v b))
    (b := b ||| secondOperand v s.bitpos.toNat s.w.toNat).mpr ⟨h, rfl⟩
  simp only [tick, goto_bitpos, goto_w, e, andThen_next]
  rfl

theorem tick_unpackRead (h : AtElement s) :
    tick .unpackRead (s.goto .unpackRead) =
      .next (s.goto (if fits s.bitpos.toNat s.w.toNat
        then .unpackWrite (fitValue (s.bufByte (byteIndex s.bitpos.toNat)) s.bitpos.toNat s.w.toNat)
        else .unpackSecondRead (s.bufByte (byteIndex s.bitpos.toNat)))) := by
  have e : readBuf (s.goto .unpackRead) (byteIndex s.bitpos.toNat) =
      .next (s.bufByte (byteIndex s.bitpos.toNat)) := readBuf_eq_next.mpr ⟨h.first_lt, rfl⟩
  simp only [tick, goto_i, goto_n, goto_bitpos, goto_w, if_pos h.index, e, andThen_next]
  rfl

theorem tick_unpackSecondRead (h : byteIndex s.bitpos.toNat + 1 < s.params.bufCap) (b0 : Byte) :
    tick (.unpackSecondRead b0) (s.goto (.unpackSecondRead b0)) =
      .next (s.goto (.unpackWrite
        (spillValue b0 (s.bufByte (byteIndex s.bitpos.toNat + 1)) s.bitpos.toNat s.w.toNat))) := by
  have e : readBuf (s.goto (.unpackSecondRead b0)) (byteIndex s.bitpos.toNat + 1) =
      .next (s.bufByte (byteIndex s.bitpos.toNat + 1)) := readBuf_eq_next.mpr ⟨h, rfl⟩
  simp only [tick, goto_bitpos, goto_w, e, andThen_next]
  rfl

theorem tick_unpackWrite (h : AtElement s) (val : Byte) :
    tick (.unpackWrite val) (s.goto (.unpackWrite val)) =
      .next ((advance { s with
        dst := s.dst.write Config.unwrittenValue s.i.toNat (extendValue val) }).goto .unpackRead) := by
  have e := writeDst_eq_next (s := s.goto (.unpackWrite val)) (v := extendValue val).mpr ⟨h.source_lt, rfl⟩
  simp only [tick, goto_i, goto_dst] at e ⊢
  simp only [e, andThen_next]
  rfl

/-! ### The element steps -/

/-- PACK's element step access by access: three transitions in the fit case, five in the spill case, and the block stands
where the element step as one transition leaves it, at the head of the loop again. -/
theorem ticks_packElement (h : AtElement s) :
    ∃ k ≤ 5, 1 ≤ k ∧
      ticks k (s.goto .packSource) = .next ((advance { s with buf := packedStep s }).goto .packSource) := by
  by_cases hf : fits s.bitpos.toNat s.w.toNat
  · refine ⟨3, by omega, by omega, ?_⟩
    simp only [ticks_goto, tick_packSource h, tick_packFirstRead h, tick_packFirstWrite h, andThen_next, ticks_zero,
      packedStep, if_pos hf]
  · have h2 := h.second_lt hf
    let t := s.putByte (byteIndex s.bitpos.toNat)
      (s.bufByte (byteIndex s.bitpos.toNat) ||| firstOperand (s.srcWord s.i.toNat) s.bitpos.toNat s.w.toNat)
    have r2 := tick_packSecondRead (s := t) h2 (s.srcWord s.i.toNat)
    have w2 := tick_packSecondWrite (s := t) h2 (s.srcWord s.i.toNat) (t.bufByte (byteIndex s.bitpos.toNat + 1))
    refine ⟨5, by omega, by omega, ?_⟩
    simp only [ticks_goto, tick_packSource h, tick_packFirstRead h, tick_packFirstWrite h, andThen_next, packedStep,
      if_neg hf]
    rw [r2, andThen_next, ticks_goto]
    refine (congrArg (fun o => andThen o (ticks 0)) w2).trans ?_
    rfl

/-- UNPACK's element step access by access: two transitions in the fit case, three in the spill case. -/
theorem ticks_unpackElement (h : AtElement s) :
    ∃ k ≤ 5, 1 ≤ k ∧
      ticks k (s.goto .unpackRead) = .next ((advance { s with dst := unpackedStep s }).goto .unpackRead) := by
  by_cases hf : fits s.bitpos.toNat s.w.toNat
  · refine ⟨2, by omega, by omega, ?_⟩
    simp only [ticks_goto, tick_unpackRead h, if_pos hf, andThen_next, tick_unpackWrite h, ticks_zero, unpackedStep,
      unpackedField]
  · refine ⟨3, by omega, by omega, ?_⟩
    simp only [ticks_goto, tick_unpackRead h, if_neg hf, andThen_next, tick_unpackSecondRead (h.second_lt hf),
      tick_unpackWrite h, ticks_zero, unpackedStep, unpackedField]

/-! ### What every transition leaves alone -/

/-- No transition of a busy block writes the latched operands, the parameters, SRC or what belongs to the host
(rules R13, R17, R32). -/
structure TickFrame (s t : State) : Prop where
  params : t.params = s.params
  op : t.op = s.op
  w : t.w = s.w
  n : t.n = s.n
  len : t.len = s.len
  src : t.src = s.src
  agenda : t.agenda = s.agenda
  resetIn : t.resetIn = s.resetIn

theorem tickFrame_refl (s : State) : TickFrame s s := ⟨rfl, rfl, rfl, rfl, rfl, rfl, rfl, rfl⟩

theorem validated_frame {s t : State} {body : State → Result State} (h : validated s body = .next t)
    (hb : ∀ u, body s = .next u → TickFrame s u) : TickFrame s t := by
  rcases validated_cases s body with ⟨-, e⟩ | ⟨-, -, e⟩ | ⟨-, -, -, e⟩ | ⟨-, -, -, e⟩ <;> rw [e] at h
  · cases h; exact ⟨rfl, rfl, rfl, rfl, rfl, rfl, rfl, rfl⟩
  · cases h; exact ⟨rfl, rfl, rfl, rfl, rfl, rfl, rfl, rfl⟩
  · cases h
  · exact hb t h

theorem tick_frame {p : Point} {s t : State} (h : tick p s = .next t) : TickFrame s t := by
  cases p with
  | check =>
    have h' : tickCheck s = .next t := h
    unfold tickCheck at h'
    split at h'
    · cases h'; exact ⟨rfl, rfl, rfl, rfl, rfl, rfl, rfl, rfl⟩
    split at h'
    · refine validated_frame h' fun u hu => ?_
      cases hu
      split <;> exact ⟨rfl, rfl, rfl, rfl, rfl, rfl, rfl, rfl⟩
    split at h'
    · refine validated_frame h' fun u hu => ?_
      cases hu
      exact ⟨rfl, rfl, rfl, rfl, rfl, rfl, rfl, rfl⟩
    · cases h'; exact ⟨rfl, rfl, rfl, rfl, rfl, rfl, rfl, rfl⟩
  | scan k =>
    have h' : tickScan s k = .next t := h
    unfold tickScan at h'
    split at h'
    · obtain ⟨v, -, h'⟩ := andThen_eq_next.mp h'
      cases h'
      split <;> exact ⟨rfl, rfl, rfl, rfl, rfl, rfl, rfl, rfl⟩
    · cases h'; exact ⟨rfl, rfl, rfl, rfl, rfl, rfl, rfl, rfl⟩
  | packSource =>
    simp only [tick] at h
    split at h
    · obtain ⟨v, -, h'⟩ := andThen_eq_next.mp h
      cases h'; exact ⟨rfl, rfl, rfl, rfl, rfl, rfl, rfl, rfl⟩
    · cases h; exact ⟨rfl, rfl, rfl, rfl, rfl, rfl, rfl, rfl⟩
  | unpackRead =>
    simp only [tick] at h
    split at h
    · obtain ⟨v, -, h'⟩ := andThen_eq_next.mp h
      cases h'; exact ⟨rfl, rfl, rfl, rfl, rfl, rfl, rfl, rfl⟩
    · cases h; exact ⟨rfl, rfl, rfl, rfl, rfl, rfl, rfl, rfl⟩
  | packFirstRead v =>
    obtain ⟨b, -, h'⟩ := andThen_eq_next.mp h
    cases h'; exact ⟨rfl, rfl, rfl, rfl, rfl, rfl, rfl, rfl⟩
  | packSecondRead v =>
    obtain ⟨b, -, h'⟩ := andThen_eq_next.mp h
    cases h'; exact ⟨rfl, rfl, rfl, rfl, rfl, rfl, rfl, rfl⟩
  | unpackSecondRead b0 =>
    obtain ⟨b, -, h'⟩ := andThen_eq_next.mp h
    cases h'; exact ⟨rfl, rfl, rfl, rfl, rfl, rfl, rfl, rfl⟩
  | packFirstWrite v b =>
    obtain ⟨s1, hs, h'⟩ := andThen_eq_next.mp h
    obtain ⟨-, rfl⟩ := writeBuf_eq_next.mp hs
    cases h'
    split <;> exact ⟨rfl, rfl, rfl, rfl, rfl, rfl, rfl, rfl⟩
  | packSecondWrite v b =>
    obtain ⟨s1, hs, h'⟩ := andThen_eq_next.mp h
    obtain ⟨-, rfl⟩ := writeBuf_eq_next.mp hs
    cases h'; exact ⟨rfl, rfl, rfl, rfl, rfl, rfl, rfl, rfl⟩
  | unpackWrite val =>
    obtain ⟨s1, hs, h'⟩ := andThen_eq_next.mp h
    obtain ⟨-, rfl⟩ := writeDst_eq_next.mp hs
    cases h'; exact ⟨rfl, rfl, rfl, rfl, rfl, rfl, rfl, rfl⟩

end Sys2Proof.Machine
end

