-- ==== Sys2Proof/Laws/Encoding.lean ====
section
/-! SUPPORT. The small lemmas of the decoder and the encoder (rules R55 to R57): the checks as inequalities, the fields
of a word as numbers, bytes and back. -/

namespace Sys2Proof

/-- The four checks of a record, as one statement about its numbers (rule R55). -/
theorem RawCommand.wf_iff (c : RawCommand) :
    c.wf = true ↔ c.op < 4 ∧ c.bitWidth < 256 ∧ c.count < 4294967296 ∧ c.bufLen < 4294967296 := by
  simp [RawCommand.wf, RawCommand.opFits, RawCommand.bitWidthFits, RawCommand.countFits, RawCommand.bufLenFits,
    and_assoc]

/-- A command is put together again from its four fields (rules R55, R57). -/
@[simp] theorem Instr.ofFields_self (i : Instr) : Instr.ofFields i.opCode i.bitWidth i.count i.bufLen = i := by
  cases i <;> rfl

/-! ### The fields of a word, as numbers (rule R56) -/

theorem opField_toNat (word : CmdWord) : (opField word).toNat = word.toNat % 4 := by
  simp [opField, BitVec.extractLsb'_toNat]

theorem bitWidthField_toNat (word : CmdWord) : (bitWidthField word).toNat = word.toNat / 4 % 256 := by
  simp [bitWidthField, BitVec.extractLsb'_toNat, Nat.shiftRight_eq_div_pow]

theorem countField_toNat (word : CmdWord) : (countField word).toNat = word.toNat / 2 ^ 10 % 2 ^ 32 := by
  simp [countField, BitVec.extractLsb'_toNat, Nat.shiftRight_eq_div_pow]

theorem bufLenField_toNat (word : CmdWord) : (bufLenField word).toNat = word.toNat / 2 ^ 42 % 2 ^ 32 := by
  simp [bufLenField, BitVec.extractLsb'_toNat, Nat.shiftRight_eq_div_pow]

/-! ### Bytes -/

/-- The bytes of a number spell it again. -/
theorem numberOfBytes_bytesOfNumber (k x : Nat) : numberOfBytes (bytesOfNumber k x) = x % 256 ^ k := by
  induction k generalizing x with
  | zero => simp [bytesOfNumber, numberOfBytes, Nat.mod_one]
  | succ k ih => rw [bytesOfNumber, numberOfBytes, ih, pow_succ', Nat.mod_mul]; simp

@[simp] theorem length_bytesOfNumber (k x : Nat) : (bytesOfNumber k x).length = k := by
  induction k generalizing x with
  | zero => rfl
  | succ k ih => simp [bytesOfNumber, ih]

end Sys2Proof
end

