-- ==== Sys2Proof/Laws/Exec.lean ====
section
/-! SUPPORT. What one command does, said once: its meaning by name, the four ways PACK and UNPACK can end, and the
element loops they run where their operands are accepted (rules R80, R100, R146). -/

namespace Sys2Proof.Machine

theorem exec_size (w : WidthOperand) (n len : CountOperand) (s : State) :
    exec (.size w n len) s = .next (s.answer (.size w n len) .ok (bytesNeeded w.toNat n.toNat)) := rfl

theorem exec_reserved (w : WidthOperand) (n len : CountOperand) (s : State) :
    exec (.reserved w n len) s = .next (s.answer (.reserved w n len) .illegalCommand 0) := rfl

/-- The body of PACK after validation (rule R80). -/
def packBody (s : State) : Result State :=
  andThen (strictScan s) fun hit =>
    match hit with
    | some k => .next (raise .valueOutOfRange k s)
    | none => elementLoop packElement s

theorem exec_pack (w : WidthOperand) (n len : CountOperand) (s : State) :
    exec (.pack w n len) s = validated (accept (.pack w n len) s) packBody := rfl

theorem exec_unpack (w : WidthOperand) (n len : CountOperand) (s : State) :
    exec (.unpack w n len) s = validated (accept (.unpack w n len) s) (elementLoop unpackElement) := rfl

/-- An answer given straight after acceptance changes nothing but the latched operands and the response. -/
theorem deliver_accept (c : Instr) (st : Status) (info : Nat) (s : State) :
    deliver st info (accept c s) = s.answer c st info := rfl

theorem accept_needed (c : Instr) (s : State) :
    (accept c s).needed = bytesNeeded c.bitWidth.toNat c.count.toNat := rfl

/-! ### The pre-scan decides between the loop and the error (rules R82, R143) -/

theorem packBody_accepted {s : State} (hv : s.n.toNat ≤ s.params.valCap)
    (h : s.params.strict = true → ∀ j < s.n.toNat, ¬ outOfRange (s.srcWord j) s.w.toNat) :
    packBody s = elementLoop packElement s := by
  unfold packBody strictScan
  by_cases hs : s.params.strict = true
  · rcases scan_next s s.n.toNat (k := 0) (by omega) with ⟨h1, -⟩ | ⟨j, -, h2, -, h4, -⟩
    · simp [hs, h1]
    · exact absurd h4 (h hs j (by omega))
  · simp [hs]

theorem packBody_rejected {s : State} (hv : s.n.toNat ≤ s.params.valCap) (hs : s.params.strict = true) {j : Nat}
    (hj : j < s.n.toNat) (hout : outOfRange (s.srcWord j) s.w.toNat)
    (hlow : ∀ l < j, ¬ outOfRange (s.srcWord l) s.w.toNat) :
    packBody s = .next (deliver .valueOutOfRange j s) := by
  unfold packBody strictScan
  rcases scan_next s s.n.toNat (k := 0) (by omega) with ⟨-, h2⟩ | ⟨i, -, h2, h3, h4, h5⟩
  · exact absurd hout (h2 j (by omega) (by omega))
  · have hij : i = j := by
      rcases Nat.lt_trichotomy i j with h | h | h
      · exact absurd h4 (hlow i h)
      · exact h
      · exact absurd hout (h5 j (by omega) h)
    simp [hs, h3, hij]

/-- The two ways the body of PACK can end. -/
theorem packBody_cases {s : State} (hv : s.n.toNat ≤ s.params.valCap) :
    (packBody s = elementLoop packElement s ∧
      (s.params.strict = true → ∀ j < s.n.toNat, ¬ outOfRange (s.srcWord j) s.w.toNat)) ∨
    ∃ j < s.n.toNat, s.params.strict = true ∧ outOfRange (s.srcWord j) s.w.toNat ∧
      (∀ l < j, ¬ outOfRange (s.srcWord l) s.w.toNat) ∧ packBody s = .next (deliver .valueOutOfRange j s) := by
  by_cases hs : s.params.strict = true
  · rcases scan_next s s.n.toNat (k := 0) (by omega) with ⟨-, h2⟩ | ⟨j, -, h2, -, h4, h5⟩
    · have h : s.params.strict = true → ∀ j < s.n.toNat, ¬ outOfRange (s.srcWord j) s.w.toNat :=
        fun _ j hj => h2 j (by omega) (by omega)
      exact .inl ⟨packBody_accepted hv h, h⟩
    · have hlow : ∀ l < j, ¬ outOfRange (s.srcWord l) s.w.toNat := fun l hl => h5 l (by omega) hl
      exact .inr ⟨j, by omega, hs, h4, hlow, packBody_rejected hv hs (by omega) h4 hlow⟩
  · have h : s.params.strict = true → ∀ j < s.n.toNat, ¬ outOfRange (s.srcWord j) s.w.toNat := fun h => absurd h hs
    exact .inl ⟨packBody_accepted hv h, h⟩

/-! ### The element loops from the start (rules R91, R108) -/

/-- PACK's element loop: what it leaves in BUF, bit by bit, and in every other field. -/
theorem elementLoop_pack {s : State} (hw : widthValid s.w.toNat) (hb : s.needed ≤ s.params.bufCap)
    (hv : s.n.toNat ≤ s.params.valCap) :
    ∃ m : Memory Byte,
      elementLoop packElement s = .next (deliver .ok s.needed { s with
        buf := m, i := s.n, bitpos := BitVec.ofNat 35 (s.n.toNat * s.w.toNat) }) ∧
      ∀ p, State.bufBit { s with buf := m } p =
        (s.bufBit p || (decide (p < s.n.toNat * s.w.toNat) && s.sourceBit s.w.toNat p)) := by
  obtain ⟨m, hm, hbits⟩ := elements_pack s.n.toNat (s := startLoop s) hw hb hv (by simp) (by simp)
  refine ⟨m, ?_, fun p => ?_⟩
  · unfold elementLoop
    rw [hm, andThen_next]
    simp
    rfl
  · have := hbits p
    simp only [startLoop_i, startLoop_w, BitVec.ofNat_eq_ofNat, BitVec.toNat_ofNat, Nat.zero_mod,
      Nat.zero_mul, Nat.zero_le, true_and, Nat.zero_add] at this
    exact this

/-- UNPACK's element loop: what it leaves in DST and in every other field. -/
theorem elementLoop_unpack {s : State} (hw : widthValid s.w.toNat) (hb : s.needed ≤ s.params.bufCap)
    (hv : s.n.toNat ≤ s.params.valCap) :
    ∃ m : Memory Value,
      elementLoop unpackElement s = .next (deliver .ok s.needed { s with
        dst := m, i := s.n, bitpos := BitVec.ofNat 35 (s.n.toNat * s.w.toNat) }) ∧
      (∀ j < s.n.toNat, ∀ b, (State.dstWord { s with dst := m } j).getLsbD b =
        (decide (b < s.w.toNat) && s.bufBit (j * s.w.toNat + (s.w.toNat - 1 - b)))) ∧
      (∀ j, s.n.toNat ≤ j → State.dstWord { s with dst := m } j = s.dstWord j) := by
  obtain ⟨m, hm, hin, hout⟩ := elements_unpack s.n.toNat (s := startLoop s) hw hb hv (by simp) (by simp)
  refine ⟨m, ?_, fun j hj b => ?_, fun j hj => ?_⟩
  · unfold elementLoop
    rw [hm, andThen_next]
    simp
    rfl
  · exact hin j (by simp) (by simpa using hj) b
  · exact hout j (by simpa using hj)

/-! ### The ways a command can end -/

/-- `B` of a command. -/
abbrev neededBy (c : Instr) : Nat := bytesNeeded c.bitWidth.toNat c.count.toNat

/-- How a PACK that is accepted ends: BUF gets the packed form of SRC ORed in, and nothing beyond `B` bytes. -/
structure PackDone (c : Instr) (s t : State) (m : Memory Byte) : Prop where
  state : t = { s.answer c .ok (neededBy c) with
    buf := m, i := c.count, bitpos := BitVec.ofNat 35 (c.count.toNat * c.bitWidth.toNat) }
  bits : ∀ p, State.bufBit { s with buf := m } p =
    (s.bufBit p || (decide (p < c.count.toNat * c.bitWidth.toNat) && s.sourceBit c.bitWidth.toNat p))

/-- How an UNPACK that is accepted ends: the first `N` words of DST hold the fields of BUF, the others their old
content. -/
structure UnpackDone (c : Instr) (s t : State) (m : Memory Value) : Prop where
  state : t = { s.answer c .ok (neededBy c) with
    dst := m, i := c.count, bitpos := BitVec.ofNat 35 (c.count.toNat * c.bitWidth.toNat) }
  fields : ∀ j < c.count.toNat, ∀ b, (State.dstWord { s with dst := m } j).getLsbD b =
    (decide (b < c.bitWidth.toNat) && s.bufBit (j * c.bitWidth.toNat + (c.bitWidth.toNat - 1 - b)))
  others : ∀ j, c.count.toNat ≤ j → State.dstWord { s with dst := m } j = s.dstWord j

/-- The eight ways a command can end. -/
inductive Ends (c : Instr) (s : State) : Prop
  | size (hop : c.opCode = 0#2) (h : exec c s = .next (s.answer c .ok (neededBy c)))
  | reserved (hop : c.opCode = 3#2) (h : exec c s = .next (s.answer c .illegalCommand 0))
  | invalidBitWidth (hop : c.opCode = 1#2 ∨ c.opCode = 2#2) (hw : ¬ widthValid c.bitWidth.toNat)
      (h : exec c s = .next (s.answer c .invalidBitWidth (neededBy c)))
  | bufferTooSmall (hop : c.opCode = 1#2 ∨ c.opCode = 2#2) (hw : widthValid c.bitWidth.toNat)
      (hl : c.bufLen.toNat < neededBy c) (h : exec c s = .next (s.answer c .bufferTooSmall (neededBy c)))
  | refused (hop : c.opCode = 1#2 ∨ c.opCode = 2#2) (hw : widthValid c.bitWidth.toNat)
      (hl : neededBy c ≤ c.bufLen.toNat)
      (hc : ¬ (c.bufLen.toNat ≤ s.params.bufCap ∧ c.count.toNat ≤ s.params.valCap))
      (h : exec c s = .refused .beyondCapacity)
  | valueOutOfRange (j : Nat) (hop : c.opCode = 1#2) (ha : s.accepts c.bitWidth c.count c.bufLen)
      (hs : s.params.strict = true) (hj : j < c.count.toNat)
      (hout : 2 ^ c.bitWidth.toNat - 1 < (s.srcWord j).toNat) (hlow : s.valuesFit c.bitWidth.toNat j)
      (h : exec c s = .next (s.answer c .valueOutOfRange j))
  | pack (t : State) (m : Memory Byte) (hop : c.opCode = 1#2) (ha : s.accepts c.bitWidth c.count c.bufLen)
      (hv : s.valuesAccepted c.bitWidth.toNat c.count.toNat) (hd : PackDone c s t m) (h : exec c s = .next t)
  | unpack (t : State) (m : Memory Value) (hop : c.opCode = 2#2) (ha : s.accepts c.bitWidth c.count c.bufLen)
      (hd : UnpackDone c s t m) (h : exec c s = .next t)

/-- Every command ends in one of them. -/
theorem exec_ends (c : Instr) (s : State) : Ends c s := by
  cases c with
  | size w n len => exact .size rfl rfl
  | reserved w n len => exact .reserved rfl rfl
  | pack w n len =>
    have he := exec_pack w n len s
    rcases validated_cases (accept (.pack w n len) s) packBody with
      ⟨h1, h2⟩ | ⟨h1, h2, h3⟩ | ⟨h1, h2, h3, h4⟩ | ⟨h1, h2, h3, h4⟩
    · exact .invalidBitWidth (.inl rfl) h1 (he.trans h2)
    · exact .bufferTooSmall (.inl rfl) h1 h2 (he.trans h3)
    · exact .refused (.inl rfl) h1 h2 h3 (he.trans h4)
    · have ha : s.accepts w n len := ⟨h1, h2, h3.1, h3.2⟩
      rcases packBody_cases (s := accept (.pack w n len) s) h3.2 with ⟨g1, g2⟩ | ⟨j, hj, hs, ho, hl, hb⟩
      · obtain ⟨m, hm, hbits⟩ := elementLoop_pack (s := accept (.pack w n len) s) h1 (h2.trans h3.1) h3.2
        exact .pack _ m rfl ha (fun hs j hj => not_lt.mp (g2 hs j hj)) ⟨rfl, hbits⟩ (he.trans (h4.trans (g1.trans hm)))
      · exact .valueOutOfRange j rfl ha hs hj ho (fun l hl' => not_lt.mp (hl l hl')) (he.trans (h4.trans hb))
  | unpack w n len =>
    have he := exec_unpack w n len s
    rcases validated_cases (accept (.unpack w n len) s) (elementLoop unpackElement) with
      ⟨h1, h2⟩ | ⟨h1, h2, h3⟩ | ⟨h1, h2, h3, h4⟩ | ⟨h1, h2, h3, h4⟩
    · exact .invalidBitWidth (.inr rfl) h1 (he.trans h2)
    · exact .bufferTooSmall (.inr rfl) h1 h2 (he.trans h3)
    · exact .refused (.inr rfl) h1 h2 h3 (he.trans h4)
    · obtain ⟨m, hm, hin, hout⟩ := elementLoop_unpack (s := accept (.unpack w n len) s) h1 (h2.trans h3.1) h3.2
      exact .unpack _ m rfl ⟨h1, h2, h3.1, h3.2⟩ ⟨rfl, hin, hout⟩ (he.trans (h4.trans hm))

end Sys2Proof.Machine
end

