-- ==== Sys2Proof/Laws/HostFields.lean ====
section
/-! SUPPORT. The block's transitions neither read nor write what belongs to the host: its further moves and a reset it
has planned (rules R11, R13, R180).  Each lemma says that a transition commutes with replacing these two fields. -/

namespace Sys2Proof.Machine

/-- An outcome with its value replaced. -/
def mapNext {α β : Type} (f : α → β) : Result α → Result β
  | .next a => .next (f a)
  | .fault e => .fault e
  | .refused e => .refused e

/-- The state with other moves of the host and another planned reset. -/
def State.withHost (moves : List HostMove) (reset : Option Nat) (s : State) : State :=
  { s with agenda := moves, resetIn := reset }

theorem mapNext_andThen {α β γ : Type} (f : β → γ) (o : Result α) (g : α → Result β) :
    mapNext f (andThen o g) = andThen o fun x => mapNext f (g x) := by cases o <;> rfl

/-- A checked access of a cell below the capacity or none, seen from both sides. -/
theorem mapNext_ite {α β : Type} (c : Prop) [Decidable c] (f : α → β) (a b : Result α) :
    mapNext f (if c then a else b) = if c then mapNext f a else mapNext f b := by split <;> rfl

variable (moves : List HostMove) (reset : Option Nat)

theorem writeBuf_withHost (s : State) (k : Nat) (b : Byte) :
    writeBuf (s.withHost moves reset) k b = mapNext (State.withHost moves reset) (writeBuf s k b) := by
  unfold writeBuf
  rw [mapNext_ite]
  rfl

theorem writeDst_withHost (s : State) (k : Nat) (v : Value) :
    writeDst (s.withHost moves reset) k v = mapNext (State.withHost moves reset) (writeDst s k v) := by
  unfold writeDst
  rw [mapNext_ite]
  rfl

theorem orBuf_withHost (s : State) (k : Nat) (x : Byte) :
    orBuf (s.withHost moves reset) k x = mapNext (State.withHost moves reset) (orBuf s k x) := by
  unfold orBuf
  rw [mapNext_andThen]
  refine congrArg (andThen (readBuf s k)) (funext fun b => ?_)
  exact writeBuf_withHost moves reset s k (b ||| x)

/-- Following an operation that commutes by a step that does. -/
theorem andThen_withHost {o o' : Result State} {f : State → Result State}
    (ho : o' = mapNext (State.withHost moves reset) o)
    (hf : ∀ s, f (s.withHost moves reset) = mapNext (State.withHost moves reset) (f s)) :
    andThen o' f = mapNext (State.withHost moves reset) (andThen o f) := by
  subst ho
  cases o with
  | next s => exact hf s
  | fault e => rfl
  | refused e => rfl

theorem packElement_withHost (s : State) :
    packElement (s.withHost moves reset) = mapNext (State.withHost moves reset) (packElement s) := by
  unfold packElement
  rw [mapNext_andThen]
  refine congrArg (andThen (readSrc s s.i.toNat)) (funext fun v => ?_)
  simp only [mapNext_ite]
  refine if_congr Iff.rfl ?_ ?_
  · exact andThen_withHost moves reset (orBuf_withHost moves reset s _ _) fun _ => rfl
  · exact andThen_withHost moves reset (orBuf_withHost moves reset s _ _) fun s1 =>
      andThen_withHost moves reset (orBuf_withHost moves reset s1 _ _) fun _ => rfl

theorem unpackElement_withHost (s : State) :
    unpackElement (s.withHost moves reset) = mapNext (State.withHost moves reset) (unpackElement s) := by
  unfold unpackElement
  simp only [mapNext_ite, mapNext_andThen]
  refine if_congr Iff.rfl ?_ ?_
  · refine congrArg (andThen (readBuf s _)) (funext fun b => ?_)
    rw [← mapNext_andThen]
    exact andThen_withHost moves reset (writeDst_withHost moves reset s _ _) fun _ => rfl
  · refine congrArg (andThen (readBuf s _)) (funext fun b0 => ?_)
    refine congrArg (andThen (readBuf s _)) (funext fun b1 => ?_)
    rw [← mapNext_andThen]
    exact andThen_withHost moves reset (writeDst_withHost moves reset s _ _) fun _ => rfl

theorem elements_withHost {f : State → Result State}
    (hf : ∀ s, f (s.withHost moves reset) = mapNext (State.withHost moves reset) (f s)) (k : Nat) (s : State) :
    elements f k (s.withHost moves reset) = mapNext (State.withHost moves reset) (elements f k s) := by
  induction k generalizing s with
  | zero => rfl
  | succ k ih => exact andThen_withHost moves reset (hf s) ih

theorem validated_withHost {f : State → Result State}
    (hf : ∀ s, f (s.withHost moves reset) = mapNext (State.withHost moves reset) (f s)) (s : State) :
    validated (s.withHost moves reset) f = mapNext (State.withHost moves reset) (validated s f) := by
  rcases validated_cases s f with ⟨h1, h2⟩ | ⟨h1, h2, h3⟩ | ⟨h1, h2, h3, h4⟩ | ⟨h1, h2, h3, h4⟩
  · rw [h2]; exact validated_invalidBitWidth (s := s.withHost moves reset) h1
  · rw [h3]; exact validated_bufferTooSmall (s := s.withHost moves reset) h1 h2
  · rw [h4]; exact validated_beyondCapacity (s := s.withHost moves reset) h1 h2 h3
  · rw [h4, ← hf]; exact validated_body (s := s.withHost moves reset) h1 h2 h3

/-- One transition of a busy block takes no notice of the host (rules R13, R180). -/
theorem tick_withHost (p : Point) (s : State) :
    tick p (s.withHost moves reset) = mapNext (State.withHost moves reset) (tick p s) := by
  cases p with
  | check =>
    show tickCheck _ = mapNext _ (tickCheck s)
    unfold tickCheck
    simp only [mapNext_ite]
    refine if_congr Iff.rfl rfl (if_congr Iff.rfl ?_ (if_congr Iff.rfl ?_ rfl))
    · refine validated_withHost moves reset (fun s => ?_) s
      show Host.Outcome.next (if s.params.strict then _ else _) = Host.Outcome.next _
      split <;> rfl
    · exact validated_withHost moves reset (fun _ => rfl) s
  | scan k =>
    show tickScan _ k = mapNext _ (tickScan s k)
    unfold tickScan
    simp only [mapNext_ite, mapNext_andThen]
    refine if_congr Iff.rfl ?_ rfl
    refine congrArg (andThen (readSrc s k)) (funext fun v => ?_)
    show Host.Outcome.next (if outOfRange v s.w.toNat then _ else _) = Host.Outcome.next _
    split <;> rfl
  | packSource =>
    simp only [tick, mapNext_ite, mapNext_andThen]
    exact if_congr Iff.rfl rfl rfl
  | packFirstRead v => simp only [tick, mapNext_andThen]; rfl
  | packFirstWrite v b =>
    refine andThen_withHost moves reset (writeBuf_withHost moves reset s _ _) fun s1 => ?_
    by_cases hf : fits s.bitpos.toNat s.w.toNat
    · have hf' : fits (s.withHost moves reset).bitpos.toNat (s.withHost moves reset).w.toNat := hf
      simp only [if_pos hf']
      rfl
    · have hf' : ¬ fits (s.withHost moves reset).bitpos.toNat (s.withHost moves reset).w.toNat := hf
      simp only [if_neg hf']
      rfl
  | packSecondRead v => simp only [tick, mapNext_andThen]; rfl
  | packSecondWrite v b =>
    exact andThen_withHost moves reset (writeBuf_withHost moves reset s _ _) fun _ => rfl
  | unpackRead =>
    simp only [tick, mapNext_ite, mapNext_andThen]
    exact if_congr Iff.rfl rfl rfl
  | unpackSecondRead b0 => simp only [tick, mapNext_andThen]; rfl
  | unpackWrite val =>
    exact andThen_withHost moves reset (writeDst_withHost moves reset s _ _) fun _ => rfl

end Sys2Proof.Machine
end

