-- ==== Sys2Proof/Laws/PerInstr.lean ====
section
/-! SUPPORT. Statements made per command as syntax.  Family Fits: the record of a command passes every check of
WellFormed.lean and names the command again (rules R55, R57). -/

namespace Sys2Proof.Laws.Fits

/-- The record of a command is well formed and is the record of that command. -/
def Statement (i : Instr) : Prop := i.raw.wf = true ∧ i.raw.command = i

/-- The fields of a command have the widths of rule R55. -/
theorem statement_of_fields (i : Instr) : Statement i := by
  refine ⟨(RawCommand.wf_iff _).mpr ⟨i.opCode.isLt, i.bitWidth.isLt, i.count.isLt, i.bufLen.isLt⟩, ?_⟩
  simp [Instr.raw, RawCommand.command]

theorem size (bitWidth : WidthOperand) (count bufLen : CountOperand) : Statement (.size bitWidth count bufLen) :=
  statement_of_fields _
theorem pack (bitWidth : WidthOperand) (count bufLen : CountOperand) : Statement (.pack bitWidth count bufLen) :=
  statement_of_fields _
theorem unpack (bitWidth : WidthOperand) (count bufLen : CountOperand) : Statement (.unpack bitWidth count bufLen) :=
  statement_of_fields _
theorem reserved (bitWidth : WidthOperand) (count bufLen : CountOperand) :
    Statement (.reserved bitWidth count bufLen) := statement_of_fields _

end Sys2Proof.Laws.Fits
end

