-- ==== Sys2Proof/Tests/Slice0.lean ====
section
/-! SUPPORT. Small tests.  Every expected result comes from the spec's own vectors (95_test_vectors.md, named at each
test) or from the table the test cites, never from the model. -/

namespace Sys2Proof.Tests

open Sys2Proof.Machine

/-! ### WellFormed: for each check a record it refuses, and one it accepts -/

/-- `.cmd 3, 7, 10, 9` (P2) can be presented. -/
theorem test_wf_accepts : ({ op := 3, bitWidth := 7, count := 10, bufLen := 9 } : RawCommand).wf = true := by decide
/-- `op` has 2 bits (R55). -/
theorem test_wf_refuses_op : ({ op := 4, bitWidth := 7, count := 10, bufLen := 9 } : RawCommand).wf = false := by decide
/-- `bit_width` has 8 bits (R55). -/
theorem test_wf_refuses_bitWidth :
    ({ op := 1, bitWidth := 256, count := 10, bufLen := 9 } : RawCommand).wf = false := by decide
/-- `count` has 32 bits (R55). -/
theorem test_wf_refuses_count :
    ({ op := 1, bitWidth := 7, count := 4294967296, bufLen := 9 } : RawCommand).wf = false := by decide
/-- `buf_len` has 32 bits (R55). -/
theorem test_wf_refuses_bufLen :
    ({ op := 1, bitWidth := 7, count := 10, bufLen := 4294967296 } : RawCommand).wf = false := by decide
/-- An illegal operand value is no ill-formed command: the block answers it (R58). -/
theorem test_wf_accepts_invalid_width :
    ({ op := 1, bitWidth := 0, count := 10, bufLen := 9 } : RawCommand).wf = true := by decide

/-! ### Decoding: the words of 95_test_vectors.md section 3, laid out as rule R56 says -/

/-- P1: `SIZE 7, 10`. -/
theorem test_decode_size : decode 0x000000000000000281C#74 = .size 7 10 0 := by decide
/-- P1: `PACK 7, 10, 9`. -/
theorem test_decode_pack : decode 0x000000024000000281D#74 = .pack 7 10 9 := by decide
/-- P1: `UNPACK 7, 10, 9`. -/
theorem test_decode_unpack : decode 0x000000024000000281E#74 = .unpack 7 10 9 := by decide
/-- P2: `.cmd 3, 7, 10, 9`. -/
theorem test_decode_reserved : decode 0x000000024000000281F#74 = .reserved 7 10 9 := by decide
/-- The fields written out bit by bit (R56): `buf_len = 1`, `count = 2`, `bit_width = 3`, `op = 0b01`. -/
theorem test_decode_bits :
    decode 0b00000000000000000000000000000001_00000000000000000000000000000010_00000011_01#74 = .pack 3 2 1 := by decide
/-- P4: `UNPACK 1, 9, 4`, from its ten bytes. -/
theorem test_decode_bytes :
    decodeBytes [0x06, 0x24, 0, 0, 0, 0x10, 0, 0, 0, 0, 0xAA] = .ok (.unpack 1 9 4, [0xAA]) := by decide
theorem test_decode_bytes_short : decodeBytes [0x1D, 0x28] = .error .commandTooShort := by decide
/-- A set bit above bit 73 is no command word (R56: 74 bits). -/
theorem test_decode_bytes_beyond :
    decodeBytes [0x1D, 0x28, 0, 0, 0, 0, 0, 0, 0, 0x04] = .error .bitsBeyondCommand := by decide
theorem test_decodeTableWord : decodeTableWord 80 0x000000024000000281D = some (.pack 7 10 9) := by decide
/-- The pseudo-instruction `PACK 7, 10` is `PACK 7, 10, 9` (R60, P1). -/
theorem test_assemble_pseudo : assemble (.packExact 7 10) = some 0x000000024000000281D#74 := by decide
/-- `PACK 255, 4294967295` needs 136902082529 bytes (R75), which no `buf_len` holds. -/
theorem test_assemble_refuses : assemble (.packExact 255 4294967295) = none := by decide

/-! ### Machines for the tests -/

/-- The cells of a list, from index `k` up, into a memory. -/
def load {α : Type} [DecidableEq α] (unwritten : α) : Nat → List α → Memory α → Memory α
  | _, [], m => m
  | k, v :: rest, m => load unwritten (k + 1) rest (m.write unwritten k v)

/-- An idle machine after reset with values in SRC, bytes in BUF and words in DST (`.src`, `.buf` of R60). -/
def machineWith (values : List Value) (bytes : List Byte) (words : List Value) : State :=
  { State.reset with src := load 0 0 values [], buf := load 0 0 bytes [], dst := load 0 0 words [] }

/-- The same with `STRICT = true`. -/
def strictWith (values : List Value) (bytes : List Byte) : State :=
  { machineWith values bytes [] with params := { Config.Params.default with strict := true } }

/-- The step that runs a command word, as a state where it answers one. -/
def after (word : CmdWord) (s : State) : Option State :=
  match step (presentWord s word) with
  | .next t => some t
  | _ => none

/-- The first `k` bytes of BUF. -/
def bufBytes (k : Nat) (s : State) : List Byte := (List.range k).map s.bufByte
/-- The first `k` words of DST. -/
def dstWords (k : Nat) (s : State) : List Value := (List.range k).map s.dstWord

/-! ### SIZE (V2, R75) -/

theorem test_size : (after 0x000000000000000281C#74 State.reset).map (·.response) =
    some (some ⟨.ok, 9⟩) := by decide
/-- The largest command: `SIZE 255, 4294967295` (R75). -/
theorem test_size_largest : (after (encode (.size 255 4294967295 0)) State.reset).map (·.response) =
    some (some ⟨.ok, 136902082529⟩) := by decide

/-! ### PACK -/

/-- V1 and P1: fit and spill steps, spillage 1 to 6. -/
theorem test_pack_source_example :
    (after 0x000000024000000281D#74 (machineWith [2, 4, 1, 1, 1, 100, 2, 3, 3, 3] [] [])).map
      (fun t => (t.response, bufBytes 10 t, t.bitpos)) =
    some (some ⟨.ok, 9⟩, [0x04, 0x10, 0x08, 0x10, 0x39, 0x01, 0x03, 0x06, 0x0C, 0], 70) := by decide +kernel
/-- P4: masking, a dirty longer buffer, bytes 2 and 3 untouched. -/
theorem test_pack_masks_and_keeps_rest :
    (after 0x0000000100000000C0D#74 (machineWith [13, 0xFFFFFFFA, 7] [0, 0, 0xAA, 0x55] [])).map
      (fun t => (t.response, bufBytes 4 t)) = some (some ⟨.ok, 2⟩, [0xAB, 0x80, 0xAA, 0x55]) := by decide +kernel

/-! ### The reserved code (P2) -/

theorem test_reserved : (after 0x000000024000000281F#74 State.reset).map (·.response) =
    some (some ⟨.illegalCommand, 0⟩) := by decide

/-! ### UNPACK -/

/-- V1: the second row needs the mask to drop a consumed bit. -/
theorem test_unpack_source_example :
    (after 0x000000024000000281E#74
      (machineWith [] [0x04, 0x10, 0x08, 0x10, 0x39, 0x01, 0x03, 0x06, 0x0C] [9, 9, 9, 9, 9, 9, 9, 9, 9, 9, 9])).map
      (fun t => (t.response, dstWords 11 t)) =
    some (some ⟨.ok, 9⟩, [2, 4, 1, 1, 1, 100, 2, 3, 3, 3, 9]) := by decide +kernel
/-- V14: `UNPACK 5, 6, 4` of `DE AD BE EF`. -/
theorem test_unpack_arbitrary_bytes :
    (after (encode (.unpack 5 6 4)) (machineWith [] [0xDE, 0xAD, 0xBE, 0xEF] [])).map (dstWords 6) =
      some [27, 26, 22, 27, 29, 27] := by decide +kernel

/-! ### One access, and a reset inside an operation (R38, R172) -/

/-- V3, `i = 5`: PACK of `0 .. 7` at `w = 3` inside its second spill step, standing at a point. -/
def insideSpillStep (byte1 : Byte) (p : Point) : State :=
  { machineWith [0, 1, 2, 3, 4, 5, 6, 7] [0x05, byte1] [] with
    activity := .busy p, op := 1, w := 3, n := 8, len := 3, i := 5, bitpos := 15 }
/-- The first OR of V3's row 5: `0x01` into BUF[1], which rows 3 and 4 left at `0x38`. -/
theorem test_access_first_write :
    (match step (insideSpillStep 0x38 (.packFirstWrite 5 0x38)) with
      | .next t => some (t.activity, bufBytes 3 t)
      | _ => none) = some (.busy (.packSecondRead 5), [0x05, 0x39, 0x00]) := by decide +kernel
/-- Reset between the two byte writes: the first stays, the second, `0x40` into BUF[2], never comes; no response. -/
theorem test_reset_inside_spill_step :
    (match step { insideSpillStep 0x39 (.packSecondRead 5) with resetIn := some 0 } with
      | .next t => some (t.activity, t.response, bufBytes 3 t)
      | _ => none) = some (.idle, none, [0x05, 0x39, 0x00]) := by decide +kernel

/-! ### Witnesses: for every statement with hypotheses, a state and operands that meet them all -/

/-- Ten values for `w = 7`, a dirty byte just beyond the nine of the packed form, an old word in DST. -/
def sample : State := machineWith [2, 4, 1, 1, 1, 100, 2, 3, 3, 3] [0, 0, 0, 0, 0, 0, 0, 0, 0, 0xAA] [9]
/-- The same block in strict mode. -/
def strictSample : State := { sample with params := { sample.params with strict := true } }
/-- A block with memories of exactly 9 bytes and 10 words. -/
def smallSample : State := { sample with params := ⟨true, 9, 10⟩, buf := [] }
/-- A block in an element loop of width `w` over ten values, at element `i`, standing at a point. -/
def inLoop (op : BitVec 2) (w : WidthOperand) (i : Nat) (p : Point) : State :=
  { sample with
    activity := .busy p, op := op, w := w, n := 10, len := 10, i := BitVec.ofNat 32 i,
    bitpos := BitVec.ofNat 35 (i * w.toNat) }
/-- Whether an outcome is a next state with a property. -/
def nextWith (o : Result State) (p : State → Bool) : Bool :=
  match o with
  | .next t => p t
  | _ => false

/-- A next state with a property, from its computation. -/
theorem exists_next {o : Result State} {p : State → Bool} (h : nextWith o p = true) : ∃ t, o = .next t ∧ p t = true := by
  cases o with
  | next t => exact ⟨t, rfl, h⟩
  | fault e => exact absurd h Bool.false_ne_true
  | refused e => exact absurd h Bool.false_ne_true

theorem witness_LowBitsSelectOperation : (0x281C#74).toNat % 4 = 0 ∧ (0x281D#74).toNat % 4 = 1 ∧
    (0x281E#74).toNat % 4 = 2 ∧ (0x281F#74).toNat % 4 = 3 := by decide
theorem witness_AssemblerLinesDecode : 255 < 2 ^ 8 ∧ 4294967295 < 2 ^ 32 ∧ bytesNeeded 8 4294967295 < 2 ^ 32 := by decide
theorem witness_SizeOfZeroIsZero : (0 : WidthOperand) = 0 ∧ (0 : CountOperand) = 0 := by decide
theorem witness_InvalidWidthRejectedFirst : (0 : WidthOperand).toNat < 1 ∧ 8 < (9 : WidthOperand).toNat ∧
    8 < (255 : WidthOperand).toNat := by decide
/-- Both clauses at the boundary: `len = B - 1` and `len = B`, which is answered. -/
theorem witness_ShortBufferRejected : (8 : CountOperand).toNat < bytesNeeded 7 10 ∧
    bytesNeeded 7 10 ≤ (9 : CountOperand).toNat ∧
    ∃ t, exec (.pack 7 10 9) sample = .next t ∧ t.response.isSome = true :=
  ⟨by decide, by decide, exists_next (by decide +kernel)⟩
theorem witness_StrictModeReportsLowestIndex : (strictWith [15, 3, 16] []).accepts 4 3 2 ∧
    (strictWith [15, 3, 16] []).params.strict = true ∧ 2 < (3 : CountOperand).toNat ∧
    2 ^ 4 - 1 < ((strictWith [15, 3, 16] []).srcWord 2).toNat ∧ (strictWith [15, 3, 16] []).valuesFit 4 2 := by
  unfold State.accepts State.valuesFit; decide
/-- One command for each way ResponseFollowsFixedOrder, CommandFrame and AccessesRefineOperation let a command end. -/
theorem witness_ResponseFollowsFixedOrder :
    (∃ t, exec (.size 7 10 0) sample = .next t ∧ decide (t.response = some ⟨.ok, 9⟩) = true) ∧
    (∃ t, exec (.reserved 7 10 9) sample = .next t ∧ decide (t.response = some ⟨.illegalCommand, 0⟩) = true) ∧
    (∃ t, exec (.unpack 9 10 0) sample = .next t ∧ decide (t.response = some ⟨.invalidBitWidth, 12⟩) = true) ∧
    (∃ t, exec (.pack 7 10 8) sample = .next t ∧ decide (t.response = some ⟨.bufferTooSmall, 9⟩) = true) ∧
    (∃ t, exec (.pack 6 10 8) strictSample = .next t ∧ decide (t.response = some ⟨.valueOutOfRange, 5⟩) = true) ∧
    (∃ t, exec (.pack 7 10 9) strictSample = .next t ∧ decide (t.response = some ⟨.ok, 9⟩) = true) ∧
    (∃ t, exec (.unpack 7 10 9) sample = .next t ∧ decide (t.response = some ⟨.ok, 9⟩) = true) :=
  ⟨exists_next (by decide +kernel), exists_next (by decide +kernel), exists_next (by decide +kernel),
    exists_next (by decide +kernel), exists_next (by decide +kernel), exists_next (by decide +kernel),
    exists_next (by decide +kernel)⟩
theorem witness_ErrorsLeaveMemoriesUnchanged : ∃ t, exec (.pack 6 10 8) strictSample = .next t ∧
    (∀ r, t.response = some r → r.status ≠ .ok) := by
  obtain ⟨t, h, hp⟩ := exists_next (o := exec (.pack 6 10 8) strictSample)
    (p := fun t => decide (t.response = some ⟨.valueOutOfRange, 5⟩)) (by decide +kernel)
  refine ⟨t, h, fun r hr => ?_⟩
  rw [of_decide_eq_true hp] at hr
  cases hr
  decide
/-- The next command of ErrorsDoNotLatch, and the equal memories of OutcomeDependsOnMemoriesOnly. -/
theorem witness_ErrorsDoNotLatch : ∃ u, exec (.pack 7 10 9) strictSample = .next u ∧ true = true :=
  exists_next (p := fun _ => true) (by decide +kernel)
/-- A refusal happens: ten bytes are offered where nine exist. -/
theorem witness_RefusedExactlyBeyondCapacity : exec (.pack 7 10 10) smallSample = .refused .beyondCapacity := rfl
theorem witness_EveryCommandEndsWithDefaultCapacities :
    State.reset.params.bufCap = 2 ^ 32 ∧ State.reset.params.valCap = 2 ^ 32 := by decide
/-- For PackOrsPackedForm, PackBoundaryWidths and PackCommutesWithOr: `w = 1`, `w = 7` and `w = 8`, `len = B`. -/
theorem witness_PackOrsPackedForm : sample.accepts 7 10 9 ∧ strictSample.valuesAccepted 7 10 ∧
    sample.accepts 8 10 10 ∧ sample.valuesAccepted 8 10 ∧ sample.accepts 1 10 2 ∧ sample.valuesAccepted 1 10 := by
  unfold State.accepts State.valuesAccepted State.valuesFit; decide
theorem witness_NoCommandClearsBufferBit : sample.bufBit 72 = true ∧
    ∃ t, exec (.pack 7 10 9) sample = .next t ∧ true = true :=
  ⟨by decide, exists_next (p := fun _ => true) (by decide +kernel)⟩
/-- The fit steps at their boundaries: `offset_index + w = 8` at `w = 8` and at `w = 1`, the last element. -/
theorem witness_PackFitStep : ∀ s ∈ [inLoop 1 8 9 .packSource, inLoop 1 1 7 .packSource],
    widthValid s.w.toNat ∧ s.needed ≤ s.params.bufCap ∧ s.n.toNat ≤ s.params.valCap ∧ s.i.toNat < s.n.toNat ∧
    s.bitpos.toNat = s.i.toNat * s.w.toNat ∧ s.bitpos.toNat % 8 + s.w.toNat = 8 := by decide
/-- The spill steps at their boundaries: spillage 1 (`w = 3`, `i = 2`) and 6 (`w = 7`, `i = 1`). -/
theorem witness_PackSpillStep : ∀ s ∈ [inLoop 1 3 2 .packSource, inLoop 1 7 1 .packSource],
    widthValid s.w.toNat ∧ s.needed ≤ s.params.bufCap ∧ s.n.toNat ≤ s.params.valCap ∧ s.i.toNat < s.n.toNat ∧
    s.bitpos.toNat = s.i.toNat * s.w.toNat ∧ 8 < s.bitpos.toNat % 8 + s.w.toNat ∧
    ¬ fits s.bitpos.toNat s.w.toNat := by decide
/-- For UnpackElementSteps and CursorCountsElements: a fit step and a spill step, and a loop run to its end. -/
theorem witness_UnpackElementSteps : ∀ s ∈ [inLoop 2 7 0 .unpackRead, inLoop 2 7 9 .unpackRead],
    widthValid s.w.toNat ∧ s.needed ≤ s.params.bufCap ∧ s.n.toNat ≤ s.params.valCap ∧ s.i.toNat < s.n.toNat ∧
    s.bitpos.toNat = s.i.toNat * s.w.toNat ∧ 10 ≤ s.n.toNat := by decide
theorem witness_EmptySequenceTouchesNothing : ¬ (1 ≤ (0 : WidthOperand).toNat ∧ (0 : WidthOperand).toNat ≤ 8) ∧
    ¬ (1 ≤ (9 : WidthOperand).toNat ∧ (9 : WidthOperand).toNat ≤ 8) ∧
    (1 ≤ (8 : WidthOperand).toNat ∧ (8 : WidthOperand).toNat ≤ 8) ∧ (0 : CountOperand).toNat ≤ sample.params.bufCap := by
  decide
/-- Both clauses: 13 and 5 agree modulo `2^3`; in strict mode 13 is out of range. -/
theorem witness_PackIgnoresHighBits : (machineWith [13] [] []).accepts 3 1 1 ∧
    (machineWith [13] [] []).params.strict = false ∧
    (∀ j < (1 : CountOperand).toNat, (State.srcWord { machineWith [13] [] [] with src := [(0, 5)] } j).toNat =
      ((machineWith [13] [] []).srcWord j).toNat % 2 ^ 3) ∧
    (strictWith [13] []).accepts 3 1 1 ∧ (strictWith [13] []).params.strict = true ∧
    ∃ j < (1 : CountOperand).toNat, 2 ^ 3 - 1 < ((strictWith [13] []).srcWord j).toNat := by
  unfold State.accepts; exact ⟨by decide, by decide, by decide, by decide, by decide, 0, by decide, by decide⟩
theorem witness_PackCommutesWithOr : ∀ k, State.bufByte { sample with buf := [] } k = 0 := fun _ => rfl
/-- Two buffers that agree on the 70 field bits and differ in the trailing bits and beyond. -/
theorem witness_UnpackIgnoresOtherBits : sample.accepts 7 10 9 ∧
    ∀ p < 10 * 7, State.bufBit { sample with buf := [(8, 0x03), (9, 0x55)] } p = sample.bufBit p := by
  unfold State.accepts; decide +kernel
theorem witness_PackThenUnpackRestoresValues : sample.accepts 7 10 9 ∧ sample.accepts 7 10 10 ∧
    strictSample.valuesAccepted 7 10 ∧ sample.valuesFit 7 10 ∧ ∀ p < 10 * 7, sample.bufBit p = false := by
  unfold State.accepts State.valuesAccepted State.valuesFit; decide +kernel
/-- DE unpacks at `w = 5` to 27; packing 27 again gives DE with its three trailing bits cleared. -/
theorem witness_UnpackThenPackRestoresBytes : (machineWith [] [0xDE] []).accepts 5 1 1 ∧
    (machineWith [27] [] []).accepts 5 1 1 ∧
    (∃ t, exec (.unpack 5 1 1) (machineWith [] [0xDE] []) = .next t ∧
      decide ((machineWith [27] [] []).srcWord 0 = t.dstWord 0) = true) ∧
    ∀ p < 8 * bytesNeeded 5 1, (machineWith [27] [] []).bufBit p = false := by
  unfold State.accepts; exact ⟨by decide, by decide, exists_next (by decide +kernel), by decide⟩
/-- Two machines that differ in SRC beyond the values packed. -/
theorem witness_PackIsInjective : (machineWith [5] [] []).accepts 3 1 1 ∧ (machineWith [5, 6] [] []).accepts 3 1 1 ∧
    (machineWith [5] [] []).valuesFit 3 1 ∧ (machineWith [5, 6] [] []).valuesFit 3 1 ∧
    (∀ p < 1 * 3, (machineWith [5] [] []).bufBit p = false ∧ (machineWith [5, 6] [] []).bufBit p = false) ∧
    (∃ t, exec (.pack 3 1 1) (machineWith [5] [] []) = .next t ∧ decide (t.bufByte 0 = 0xA0) = true) ∧
    ∃ u, exec (.pack 3 1 1) (machineWith [5, 6] [] []) = .next u ∧ decide (u.bufByte 0 = 0xA0) = true := by
  unfold State.accepts State.valuesFit
  exact ⟨by decide, by decide, by decide, by decide, by decide, exists_next (by decide +kernel),
    exists_next (by decide +kernel)⟩
/-- At the boundary, memories of exactly 9 bytes and 10 words, with values that strict mode accepts at `w = 7`. -/
theorem witness_ExactMemoriesSuffice : 1 ≤ (7 : WidthOperand).toNat ∧ (7 : WidthOperand).toNat ≤ 8 ∧
    (9 : CountOperand).toNat = bytesNeeded 7 10 ∧ bytesNeeded 7 10 = smallSample.params.bufCap ∧
    10 = smallSample.params.valCap ∧ smallSample.valuesAccepted 7 10 := by
  unfold State.valuesAccepted State.valuesFit; decide
theorem witness_StepRunsPresentedCommand : (presentWord sample 0x281C#74).activity = .idle ∧
    (presentWord sample 0x281C#74).resetIn = none ∧
    (presentWord sample 0x281C#74).agenda = .issue 0x281C#74 :: sample.agenda := by decide
theorem witness_FetchWordIsRunNext : 0 < 2 ^ 74 ∧ 0x3FFFFFFFFFFFFFFFFFF < 2 ^ 74 := by decide
/-- StepKeepsInvariant and BusyBlockNeverFaults: the invariant at an idle block and at points of both loops. -/
theorem witness_StepKeepsInvariant :
    (∀ s ∈ [sample, inLoop 1 7 10 .packSource, inLoop 1 7 1 (.packSecondWrite 4 0), inLoop 2 7 9 (.unpackSecondRead 6)],
      s.Inv = true) ∧
    ∃ t, step (inLoop 1 7 1 (.packSecondWrite 4 0)) = .next t ∧ true = true :=
  ⟨by decide +kernel, exists_next (p := fun _ => true) (by decide +kernel)⟩
/-- Both clauses: the counter at 0 inside a spill step, and the move beside an idle block; a command that runs. -/
theorem witness_ResetAbandonsOperation :
    { inLoop 1 7 1 (.packSecondWrite 4 0) with resetIn := some 0 }.resetIn = some 0 ∧
    { sample with agenda := [.reset, .issue 0x281C#74] }.agenda = .reset :: [.issue 0x281C#74] ∧
    sample.activity = .idle ∧ sample.resetIn = none ∧ ∃ u, exec (.pack 7 10 9) sample = .next u ∧ true = true :=
  ⟨rfl, rfl, rfl, rfl, exists_next (p := fun _ => true) (by decide +kernel)⟩
/-- ResetDuringPackLeavesPrefix before the loop, at its head after one element, at the last point before the first byte
write of the spill step of element 1 and between its two byte writes; ResetDuringUnpackLeavesPrefix after one element. -/
theorem witness_ResetDuringPackLeavesPrefix :
    (∃ t, ticks 0 (accept (.pack 7 10 9) sample) = .next t ∧ decide (t.activity = .busy .check) = true) ∧
    (∃ t, ticks 4 (accept (.pack 7 10 9) sample) = .next t ∧
      decide (t.activity = .busy .packSource ∧ t.i = 1) = true) ∧
    (∃ t, ticks 6 (accept (.pack 7 10 9) sample) = .next t ∧
      decide (t.activity = .busy (.packFirstWrite 4 0x04) ∧ t.i = 1) = true) ∧
    (∃ t, ticks 7 (accept (.pack 7 10 9) sample) = .next t ∧
      decide (t.activity = .busy (.packSecondRead 4) ∧ t.i = 1) = true) ∧
    ∃ t, ticks 3 (accept (.unpack 7 10 9) sample) = .next t ∧
      decide (t.activity = .busy .unpackRead ∧ t.i = 1) = true :=
  ⟨exists_next (by decide +kernel), exists_next (by decide +kernel), exists_next (by decide +kernel),
    exists_next (by decide +kernel), exists_next (by decide +kernel)⟩
theorem witness_BusyBlockIgnoresHost : (inLoop 1 7 1 .packSource).activity = .busy .packSource ∧
    (inLoop 1 7 1 .packSource).resetIn ≠ some 0 ∧ ∃ t, step (inLoop 1 7 1 .packSource) = .next t ∧ true = true :=
  ⟨rfl, by decide, exists_next (p := fun _ => true) (by decide +kernel)⟩
/-- The three clauses of ParametersStaticResponseTransient: any step, an idle one that issues nothing, a busy one. -/
theorem witness_ParametersStaticResponseTransient :
    (∃ t, step { sample with response := some ⟨.ok, 9⟩ } = .next t ∧ true = true) ∧
    (∀ word rest, sample.agenda ≠ .issue word :: rest) ∧
    (inLoop 1 7 1 .packSource).activity ≠ .idle ∧ (inLoop 1 7 1 .packSource).response = none ∧
    ∃ t, step (inLoop 1 7 1 .packSource) = .next t ∧ decide (t.activity ≠ .idle) = true :=
  ⟨exists_next (p := fun _ => true) (by decide +kernel), fun _ _ h => (List.cons_ne_nil _ _ h.symm).elim,
    by decide, by decide, exists_next (by decide +kernel)⟩
/-- The three clauses of HostWritesItsMemories, at the highest index that exists. -/
theorem witness_HostWritesItsMemories :
    { smallSample with agenda := [.writeBuf 8 1] }.agenda = .writeBuf 8 1 :: [] ∧
    (8 : CountOperand).toNat < smallSample.params.bufCap ∧
    { smallSample with agenda := [.writeSrc 9 1] }.agenda = .writeSrc 9 1 :: [] ∧
    { smallSample with agenda := [.writeDst 9 1] }.agenda = .writeDst 9 1 :: [] ∧
    (9 : CountOperand).toNat < smallSample.params.valCap ∧ smallSample.activity = .idle ∧
    smallSample.resetIn = none := by decide
/-- The clauses of SpacesArePlainStorage: the last cell of each space, and the first that does not exist. -/
theorem witness_SpacesArePlainStorage :
    (∃ t, writeBuf smallSample 8 1 = .next t ∧ true = true) ∧ (∃ t, writeDst smallSample 9 1 = .next t ∧ true = true) ∧
    (∃ t, writeSrc smallSample 9 1 = .next t ∧ true = true) ∧ smallSample.params.bufCap ≤ 9 ∧
    smallSample.params.valCap ≤ 10 :=
  ⟨exists_next (p := fun _ => true) (by decide), exists_next (p := fun _ => true) (by decide),
    exists_next (p := fun _ => true) (by decide), by decide, by decide⟩
/-- The three clauses of BusyStepIsOneAccess. -/
theorem witness_BusyStepIsOneAccess : (inLoop 1 7 1 .packSource).activity = .busy .packSource ∧
    (inLoop 1 7 1 .packSource).resetIn = none ∧
    { inLoop 1 7 1 .packSource with resetIn := some 1 }.resetIn = some (0 + 1) ∧ sample.activity = .idle ∧
    { sample with agenda := [.issueThenReset 0x281D#74 0] }.agenda = .issueThenReset 0x281D#74 0 :: [] := by decide

end Sys2Proof.Tests
end

section
/-! PROOFS. What a step of the machine can do, said once: the transitions of a busy block, point by point, the moves of
the host beside an idle one, and a reset that is due. -/

namespace Sys2Proof.Machine

/-! ### One transition of a busy block -/

/-- The state with word `k` of DST written. -/
abbrev State.putWord (s : State) (k : Nat) (v : Value) : State :=
  { s with dst := s.dst.write Config.unwrittenValue k v }

/-- What one transition of a busy block can do from each point (rules R22, R38): the operation ends with a response, or
the block goes on to the point named, under the guard it has passed and with at most one cell written. -/
inductive TickTo (s : State) : Point → State → Prop
  | answer (p : Point) (st : Status) (info : Nat) : TickTo s p (deliver st info s)
  | startScan (hop : s.op = 1#2) (hok : s.operandsOk = true) (hs : s.params.strict = true) :
      TickTo s .check (s.goto (.scan 0))
  | startPack (hop : s.op = 1#2) (hok : s.operandsOk = true) : TickTo s .check ((startLoop s).goto .packSource)
  | startUnpack (hop : s.op = 2#2) (hok : s.operandsOk = true) : TickTo s .check ((startLoop s).goto .unpackRead)
  | scanRead (k : Nat) (hk : k < s.n.toNat) : TickTo s (.scan k) (s.goto (.scan (k + 1)))
  | scanEnd (k : Nat) : TickTo s (.scan k) ((startLoop s).goto .packSource)
  | packSource (v : Value) (hi : s.i.toNat < s.n.toNat) : TickTo s .packSource (s.goto (.packFirstRead v))
  | packFirstRead (v : Value) (b : Byte) : TickTo s (.packFirstRead v) (s.goto (.packFirstWrite v b))
  | packFit (v : Value) (b : Byte) (k : Nat) (x : Byte) (hk : k < s.params.bufCap) :
      TickTo s (.packFirstWrite v b) ((advance (s.putByte k x)).goto .packSource)
  | packSpill (v : Value) (b : Byte) (k : Nat) (x : Byte) (hk : k < s.params.bufCap)
      (hf : ¬ fits s.bitpos.toNat s.w.toNat) : TickTo s (.packFirstWrite v b) ((s.putByte k x).goto (.packSecondRead v))
  | packSecondRead (v : Value) (b : Byte) : TickTo s (.packSecondRead v) (s.goto (.packSecondWrite v b))
  | packSecondWrite (v : Value) (b : Byte) (k : Nat) (x : Byte) (hk : k < s.params.bufCap) :
      TickTo s (.packSecondWrite v b) ((advance (s.putByte k x)).goto .packSource)
  | unpackFit (b : Byte) (hi : s.i.toNat < s.n.toNat) :
      TickTo s .unpackRead (s.goto (.unpackWrite (fitValue b s.bitpos.toNat s.w.toNat)))
  | unpackSpill (b : Byte) (hi : s.i.toNat < s.n.toNat) (hf : ¬ fits s.bitpos.toNat s.w.toNat) :
      TickTo s .unpackRead (s.goto (.unpackSecondRead b))
  | unpackSecondRead (b0 b1 : Byte) :
      TickTo s (.unpackSecondRead b0) (s.goto (.unpackWrite (spillValue b0 b1 s.bitpos.toNat s.w.toNat)))
  | unpackWrite (val : Byte) (k : Nat) (v : Value) (hk : k < s.params.valCap) :
      TickTo s (.unpackWrite val) ((advance (s.putWord k v)).goto .unpackRead)

/-- The check of the latched operands in the invariant, as one statement. -/
theorem operandsOk_iff (s : State) :
    s.operandsOk = true ↔ widthValid s.w.toNat ∧ s.needed ≤ s.len.toNat ∧ s.offersExisting := by
  simp [State.operandsOk, and_assoc]

/-- A validation that answers has raised an error, or the operands are good and the body has run. -/
theorem validated_eq_next {s t : State} {body : State → Result State} (h : validated s body = .next t) :
    (∃ st, t = deliver st s.needed s) ∨ (s.operandsOk = true ∧ body s = .next t) := by
  rcases validated_cases s body with ⟨-, e⟩ | ⟨-, -, e⟩ | ⟨-, -, -, e⟩ | ⟨hw, hl, hc, e⟩ <;> rw [e] at h
  · cases h; exact .inl ⟨_, rfl⟩
  · cases h; exact .inl ⟨_, rfl⟩
  · cases h
  · exact .inr ⟨(operandsOk_iff s).mpr ⟨hw, hl, hc⟩, h⟩

theorem tickCheck_cases {s t : State} (h : tickCheck s = .next t) : TickTo s .check t := by
  unfold tickCheck at h
  split at h
  · cases h; exact .answer _ _ _
  split at h
  · next hop =>
    obtain ⟨st, rfl⟩ | ⟨hok, hbody⟩ := validated_eq_next h
    · exact .answer _ _ _
    · cases hbody
      split
      · next hs => exact .startScan hop hok hs
      · exact .startPack hop hok
  split at h
  · next hop =>
    obtain ⟨st, rfl⟩ | ⟨hok, hbody⟩ := validated_eq_next h
    · exact .answer _ _ _
    · cases hbody; exact .startUnpack hop hok
  · cases h; exact .answer _ _ _

theorem tickScan_cases {s t : State} {k : Nat} (h : tickScan s k = .next t) : TickTo s (.scan k) t := by
  unfold tickScan at h
  split at h
  · next hk =>
    obtain ⟨v, -, h⟩ := andThen_eq_next.mp h
    cases h
    split
    · exact .answer _ _ _
    · exact .scanRead k hk
  · cases h; exact .scanEnd k

/-- A transition that ends well is one of `TickTo`. -/
theorem tick_cases {p : Point} {s t : State} (h : tick p s = .next t) : TickTo s p t := by
  cases p with
  | check => exact tickCheck_cases h
  | scan k => exact tickScan_cases h
  | packSource =>
    simp only [tick] at h
    split at h
    · next hi =>
      obtain ⟨v, -, h⟩ := andThen_eq_next.mp h
      cases h; exact .packSource v hi
    · cases h; exact .answer _ _ _
  | packFirstRead v =>
    obtain ⟨b, -, h⟩ := andThen_eq_next.mp h
    cases h; exact .packFirstRead v b
  | packFirstWrite v b =>
    obtain ⟨s1, hs, h⟩ := andThen_eq_next.mp h
    obtain ⟨hk, rfl⟩ := writeBuf_eq_next.mp hs
    cases h
    split
    · exact .packFit v b _ _ hk
    · next hf => exact .packSpill v b _ _ hk hf
  | packSecondRead v =>
    obtain ⟨b, -, h⟩ := andThen_eq_next.mp h
    cases h; exact .packSecondRead v b
  | packSecondWrite v b =>
    obtain ⟨s1, hs, h⟩ := andThen_eq_next.mp h
    obtain ⟨hk, rfl⟩ := writeBuf_eq_next.mp hs
    cases h; exact .packSecondWrite v b _ _ hk
  | unpackRead =>
    simp only [tick] at h
    split at h
    · next hi =>
      obtain ⟨b, -, h⟩ := andThen_eq_next.mp h
      cases h
      split
      · exact .unpackFit b hi
      · next hf => exact .unpackSpill b hi hf
    · cases h; exact .answer _ _ _
  | unpackSecondRead b0 =>
    obtain ⟨b1, -, h⟩ := andThen_eq_next.mp h
    cases h; exact .unpackSecondRead b0 b1
  | unpackWrite val =>
    obtain ⟨s1, hs, h⟩ := andThen_eq_next.mp h
    obtain ⟨hk, rfl⟩ := writeDst_eq_next.mp hs
    cases h; exact .unpackWrite val _ _ hk

/-! ### One step of the machine -/

/-- A step with a reset due now is that reset (rule R172). -/
theorem step_reset_due {s : State} (h : s.resetIn = some 0) : step s = .next (performReset s) := by
  simp only [step, machineStep, h]

/-- A step of a busy block is its next transition, the planned reset, if there is one, one transition nearer. -/
theorem step_busy {s : State} {p : Point} (ha : s.activity = .busy p) (hr : s.resetIn ≠ some 0) :
    step s = tick p (s.withHost s.agenda (s.resetIn.map Nat.pred)) := by
  obtain ⟨params, activity, op, w, n, len, i, bitpos, src, buf, dst, response, agenda, resetIn⟩ := s
  obtain rfl : activity = .busy p := ha
  match resetIn, hr with
  | none, _ => rfl
  | some 0, h => exact absurd rfl h
  | some (k + 1), _ => rfl

/-- Beside an idle block with no reset under way the host makes its next move; it has taken the response before. -/
theorem step_idle_host {s : State} {m : HostMove} {rest : List HostMove} (ha : s.activity = .idle)
    (hr : s.resetIn = none) (hg : s.agenda = m :: rest) :
    step s = hostMove m { s with response := none, agenda := rest } := by
  obtain ⟨params, activity, op, w, n, len, i, bitpos, src, buf, dst, response, agenda, resetIn⟩ := s
  obtain rfl : activity = .idle := ha
  obtain rfl : resetIn = none := hr
  obtain rfl : agenda = m :: rest := hg
  rfl

/-- Beside an idle block a host that plans a reset, or has no move left, only takes the response. -/
theorem step_idle_wait {s : State} (ha : s.activity = .idle) (hr : s.resetIn ≠ some 0)
    (hg : s.resetIn = none → s.agenda = []) :
    step s = .next ((takeResponse s).withHost s.agenda (s.resetIn.map Nat.pred)) := by
  obtain ⟨params, activity, op, w, n, len, i, bitpos, src, buf, dst, response, agenda, resetIn⟩ := s
  obtain rfl : activity = .idle := ha
  match resetIn, hr with
  | none, _ =>
    obtain rfl : agenda = [] := hg rfl
    rfl
  | some 0, h => exact absurd rfl h
  | some (k + 1), _ => rfl

/-- What one step of the machine can do: the reset that is due, the next transition of a busy block, waiting, or the
host's next move. -/
inductive StepTo (s t : State) : Prop
  | reset (ht : t = performReset s)
  | tick (p : Point) (planned : Option Nat) (ha : s.activity = .busy p)
      (h : tick p (s.withHost s.agenda planned) = .next t)
  | wait (planned : Option Nat) (ha : s.activity = .idle) (ht : t = (takeResponse s).withHost s.agenda planned)
  | host (m : HostMove) (rest : List HostMove) (ha : s.activity = .idle) (hg : s.agenda = m :: rest)
      (h : hostMove m { s with response := none, agenda := rest } = .next t)

theorem step_cases {s t : State} (h : step s = .next t) : StepTo s t := by
  by_cases hr : s.resetIn = some 0
  · rw [step_reset_due hr] at h
    cases h; exact .reset rfl
  cases ha : s.activity with
  | busy p => exact .tick p _ ha (step_busy ha hr ▸ h)
  | idle =>
    by_cases hw : s.resetIn = none → s.agenda = []
    · rw [step_idle_wait ha hr hw] at h
      cases h; exact .wait _ ha rfl
    · obtain ⟨hn, hg⟩ := Classical.not_imp.mp hw
      obtain ⟨m, rest, hg⟩ := List.exists_cons_of_ne_nil hg
      exact .host m rest ha hg (step_idle_host ha hn hg ▸ h)

end Sys2Proof.Machine
end

section
/-! PROOFS. The frame of every command (rules R13, R32, R33), and that every operation keeps the memories in canonical
form. -/

namespace Sys2Proof.Machine

/-! ### What a command leaves unchanged -/

/-- What command `c` may change from `s` to `t`, cell by cell, and what the latched operands hold after it. -/
structure ExecFrame (c : Instr) (s t : State) : Prop where
  src : t.src = s.src
  params : t.params = s.params
  agenda : t.agenda = s.agenda
  resetIn : t.resetIn = s.resetIn
  op : t.op = c.opCode
  w : t.w = c.bitWidth
  n : t.n = c.count
  len : t.len = c.bufLen
  buf : c.opCode ≠ 1#2 → t.buf = s.buf
  dst : c.opCode ≠ 2#2 → t.dst = s.dst
  bufBeyond : ∀ k, neededBy c ≤ k → t.bufByte k = s.bufByte k
  dstBeyond : ∀ k, c.count.toNat ≤ k → t.dstWord k = s.dstWord k

/-- An answer writes no cell. -/
theorem answer_frame (c : Instr) (s : State) (st : Status) (result : Nat) : ExecFrame c s (s.answer c st result) :=
  ⟨rfl, rfl, rfl, rfl, rfl, rfl, rfl, rfl, fun _ => rfl, fun _ => rfl, fun _ _ => rfl, fun _ _ => rfl⟩

/-- A byte of BUF is its eight bits (rule R7). -/
theorem bufByte_eq_of_bufBit {s t : State} {k : Nat} (h : ∀ p, p / 8 = k → t.bufBit p = s.bufBit p) :
    t.bufByte k = s.bufByte k := by
  refine BitVec.eq_of_getLsbD_eq fun b hb => ?_
  have hdiv : (8 * k + (7 - b)) / 8 = k := by omega
  have hmod : 7 - (8 * k + (7 - b)) % 8 = b := by omega
  simpa only [State.bufBit, hdiv, hmod] using h (8 * k + (7 - b)) hdiv

theorem PackDone.frame {c : Instr} {s t : State} {m : Memory Byte} (hop : c.opCode = 1#2) (h : PackDone c s t m) :
    ExecFrame c s t := by
  obtain ⟨rfl, hbits⟩ := h
  refine ⟨rfl, rfl, rfl, rfl, rfl, rfl, rfl, rfl, fun hne => absurd hop hne, fun _ => rfl, fun k hk => ?_,
    fun _ _ => rfl⟩
  refine bufByte_eq_of_bufBit fun p hp => (hbits p).trans ?_
  have hbeyond : ¬ p < c.count.toNat * c.bitWidth.toNat := fun hlt =>
    absurd (hp ▸ div_lt_bytesNeeded (Nat.mul_comm _ _ ▸ hlt)) (not_lt.mpr hk)
  simp [hbeyond]

theorem UnpackDone.frame {c : Instr} {s t : State} {m : Memory Value} (hop : c.opCode = 2#2)
    (h : UnpackDone c s t m) : ExecFrame c s t := by
  obtain ⟨rfl, -, hothers⟩ := h
  exact ⟨rfl, rfl, rfl, rfl, rfl, rfl, rfl, rfl, fun _ => rfl, fun hne => absurd hop hne, fun _ _ => rfl, hothers⟩

/-- Every command that is answered keeps the frame (rules R13, R32, R33). -/
theorem exec_frame {c : Instr} {s t : State} (h : exec c s = .next t) : ExecFrame c s t := by
  cases exec_ends c s with
  | size _ he => cases he.symm.trans h; exact answer_frame _ _ _ _
  | reserved _ he => cases he.symm.trans h; exact answer_frame _ _ _ _
  | invalidBitWidth _ _ he => cases he.symm.trans h; exact answer_frame _ _ _ _
  | bufferTooSmall _ _ _ he => cases he.symm.trans h; exact answer_frame _ _ _ _
  | refused _ _ _ _ he => cases he.symm.trans h
  | valueOutOfRange _ _ _ _ _ _ _ he => cases he.symm.trans h; exact answer_frame _ _ _ _
  | pack _ _ hop _ _ hd he => cases he.symm.trans h; exact hd.frame hop
  | unpack _ _ hop _ hd he => cases he.symm.trans h; exact hd.frame hop

/-- A command runs to its end, with a response and the block idle, or it is refused for memory that does not exist
(rules R10, R59, R181). -/
theorem exec_answers_or_refused (c : Instr) (s : State) :
    (∃ t r, exec c s = .next t ∧ t.activity = .idle ∧ t.response = some r) ∨
    (exec c s = .refused .beyondCapacity ∧
      ¬ (c.bufLen.toNat ≤ s.params.bufCap ∧ c.count.toNat ≤ s.params.valCap)) := by
  cases exec_ends c s with
  | size _ he => exact .inl ⟨_, _, he, rfl, rfl⟩
  | reserved _ he => exact .inl ⟨_, _, he, rfl, rfl⟩
  | invalidBitWidth _ _ he => exact .inl ⟨_, _, he, rfl, rfl⟩
  | bufferTooSmall _ _ _ he => exact .inl ⟨_, _, he, rfl, rfl⟩
  | refused _ _ _ hc he => exact .inr ⟨he, hc⟩
  | valueOutOfRange _ _ _ _ _ _ _ he => exact .inl ⟨_, _, he, rfl, rfl⟩
  | pack _ _ _ _ _ hd he => obtain ⟨rfl, -⟩ := hd; exact .inl ⟨_, _, he, rfl, rfl⟩
  | unpack _ _ _ _ hd he => obtain ⟨rfl, -, -⟩ := hd; exact .inl ⟨_, _, he, rfl, rfl⟩

theorem exec_idle {c : Instr} {s t : State} (h : exec c s = .next t) : t.activity = .idle := by
  obtain ⟨u, r, hu, hidle, -⟩ | ⟨hu, -⟩ := exec_answers_or_refused c s
  · cases hu.symm.trans h; exact hidle
  · cases hu.symm.trans h

/-! ### The canonical form of the memories -/

theorem memWf_iff (s : State) : s.memWf = true ↔ s.src.wf Config.unwrittenValue s.params.valCap = true ∧
    s.buf.wf Config.unwrittenByte s.params.bufCap = true ∧
    s.dst.wf Config.unwrittenValue s.params.valCap = true := by
  simp [State.memWf, and_assoc]

theorem writeSrc_memWf {s t : State} {k : Nat} {v : Value} (h : writeSrc s k v = .next t) (hs : s.memWf = true) :
    t.memWf = true := by
  obtain ⟨hk, rfl⟩ := writeSrc_eq_next.mp h
  obtain ⟨hsrc, hbuf, hdst⟩ := (memWf_iff s).mp hs
  exact (memWf_iff _).mpr ⟨Memory.write_wf _ _ k v _ hk hsrc, hbuf, hdst⟩

theorem putByte_memWf {s : State} {k : Nat} (b : Byte) (hk : k < s.params.bufCap) (hs : s.memWf = true) :
    (s.putByte k b).memWf = true := by
  obtain ⟨hsrc, hbuf, hdst⟩ := (memWf_iff s).mp hs
  exact (memWf_iff _).mpr ⟨hsrc, Memory.write_wf _ _ k b _ hk hbuf, hdst⟩

theorem putWord_memWf {s : State} {k : Nat} (v : Value) (hk : k < s.params.valCap) (hs : s.memWf = true) :
    (s.putWord k v).memWf = true := by
  obtain ⟨hsrc, hbuf, hdst⟩ := (memWf_iff s).mp hs
  exact (memWf_iff _).mpr ⟨hsrc, hbuf, Memory.write_wf _ _ k v _ hk hdst⟩

theorem orBuf_memWf {s t : State} {k : Nat} {x : Byte} (h : orBuf s k x = .next t) (hs : s.memWf = true) :
    t.memWf = true := by
  obtain ⟨hk, rfl⟩ := orBuf_eq_next.mp h
  exact putByte_memWf _ hk hs

theorem packElement_memWf (s t : State) (h : packElement s = .next t) (hs : s.memWf = true) : t.memWf = true := by
  obtain ⟨v, -, h⟩ := andThen_eq_next.mp h
  dsimp only at h
  split at h
  · obtain ⟨s1, h1, h⟩ := andThen_eq_next.mp h
    cases h; change s1.memWf = true; exact orBuf_memWf h1 hs
  · obtain ⟨s1, h1, h⟩ := andThen_eq_next.mp h
    obtain ⟨s2, h2, h⟩ := andThen_eq_next.mp h
    cases h; change s2.memWf = true; exact orBuf_memWf h2 (orBuf_memWf h1 hs)

/-- UNPACK's element step ends in one write to DST and the advance of the cursor, in the fit case and in the spill
case. -/
theorem unpackElement_eq_next {s t : State} (h : unpackElement s = .next t) :
    ∃ v, s.i.toNat < s.params.valCap ∧ t = advance (s.putWord s.i.toNat v) := by
  simp only [unpackElement] at h
  split at h
  · obtain ⟨b, -, h⟩ := andThen_eq_next.mp h
    obtain ⟨s1, h1, h⟩ := andThen_eq_next.mp h
    obtain ⟨hk, rfl⟩ := writeDst_eq_next.mp h1
    cases h; exact ⟨_, hk, rfl⟩
  · obtain ⟨b0, -, h⟩ := andThen_eq_next.mp h
    obtain ⟨b1, -, h⟩ := andThen_eq_next.mp h
    obtain ⟨s1, h1, h⟩ := andThen_eq_next.mp h
    obtain ⟨hk, rfl⟩ := writeDst_eq_next.mp h1
    cases h; exact ⟨_, hk, rfl⟩

theorem unpackElement_memWf (s t : State) (h : unpackElement s = .next t) (hs : s.memWf = true) : t.memWf = true := by
  obtain ⟨v, hk, rfl⟩ := unpackElement_eq_next h
  exact putWord_memWf v hk hs

theorem elementLoop_memWf {f : State → Result State} (hf : ∀ s t, f s = .next t → s.memWf = true → t.memWf = true)
    {s t : State} (h : elementLoop f s = .next t) (hs : s.memWf = true) : t.memWf = true := by
  obtain ⟨u, hu, h⟩ := andThen_eq_next.mp h
  cases h
  change u.memWf = true
  exact elements_keep (P := fun u => u.memWf = true) hf s.n.toNat (s := startLoop s) hu hs

theorem packBody_memWf {s t : State} (h : packBody s = .next t) (hs : s.memWf = true) : t.memWf = true := by
  obtain ⟨hit, -, h⟩ := andThen_eq_next.mp h
  cases hit with
  | some k => cases h; exact hs
  | none => exact elementLoop_memWf packElement_memWf h hs

theorem validated_memWf {s t : State} {body : State → Result State} (h : validated s body = .next t)
    (hb : body s = .next t → t.memWf = true) (hs : s.memWf = true) : t.memWf = true := by
  obtain ⟨st, rfl⟩ | ⟨-, hbody⟩ := validated_eq_next h
  · exact hs
  · exact hb hbody

/-- Every command keeps the memories in canonical form. -/
theorem exec_memWf {c : Instr} {s t : State} (h : exec c s = .next t) (hs : s.memWf = true) : t.memWf = true := by
  cases c with
  | size w n len => cases h; exact hs
  | reserved w n len => cases h; exact hs
  | pack w n len => exact validated_memWf ((exec_pack w n len s).symm.trans h) (fun hb => packBody_memWf hb hs) hs
  | unpack w n len =>
    exact validated_memWf ((exec_unpack w n len s).symm.trans h)
      (fun hb => elementLoop_memWf unpackElement_memWf hb hs) hs

/-- Every transition of a busy block does. -/
theorem tick_memWf {p : Point} {s t : State} (h : tick p s = .next t) (hs : s.memWf = true) : t.memWf = true := by
  cases tick_cases h with
  | packFit v b k x hk => exact putByte_memWf x hk hs
  | packSpill v b k x hk _ => exact putByte_memWf x hk hs
  | packSecondWrite v b k x hk => exact putByte_memWf x hk hs
  | unpackWrite val k v hk => exact putWord_memWf v hk hs
  | _ => exact hs

end Sys2Proof.Machine
end

section
/-! PROOFS. The invariant of the machine (rules R10, R15, R22): each transition of a busy block leads from a legal point
to a legal point, and each move of the host beside an idle block keeps the invariant. -/

namespace Sys2Proof.Machine

/-! ### The invariant by its parts -/

theorem inv_iff (s : State) : s.Inv = true ↔ s.params.wf = true ∧ s.memWf = true ∧ s.activityOk = true := by
  simp [State.Inv, and_assoc]

theorem activityOk_of_idle {s : State} (h : s.activity = .idle) : s.activityOk = true := by
  simp [State.activityOk, h]

theorem activityOk_of_busy {s : State} {p : Point} (h : s.activity = .busy p) :
    s.activityOk = true ↔ s.pointOk p = true ∧ s.response = none := by
  simp [State.activityOk, h]

theorem cursorOk_iff (s : State) :
    s.cursorOk = true ↔ s.i.toNat ≤ s.n.toNat ∧ s.bitpos.toNat = s.i.toNat * s.w.toNat := by
  simp [State.cursorOk]

theorem inElement_iff (s : State) : s.inElement = true ↔ s.cursorOk = true ∧ s.i.toNat < s.n.toNat := by
  simp [State.inElement]

/-! ### The legal points, one by one -/

section
variable {s : State}

theorem pointOk_scan {k : Nat} : s.pointOk (.scan k) = true ↔
    s.op = 1#2 ∧ s.operandsOk = true ∧ s.params.strict = true ∧ k ≤ s.n.toNat := by
  simp [State.pointOk, and_assoc]

theorem pointOk_packSource :
    s.pointOk .packSource = true ↔ s.op = 1#2 ∧ s.operandsOk = true ∧ s.cursorOk = true := by
  simp [State.pointOk, and_assoc]

theorem pointOk_packFirstRead {v : Value} :
    s.pointOk (.packFirstRead v) = true ↔ s.op = 1#2 ∧ s.operandsOk = true ∧ s.inElement = true := by
  simp [State.pointOk, and_assoc]

theorem pointOk_packFirstWrite {v : Value} {b : Byte} :
    s.pointOk (.packFirstWrite v b) = true ↔ s.op = 1#2 ∧ s.operandsOk = true ∧ s.inElement = true := by
  simp [State.pointOk, and_assoc]

theorem pointOk_packSecondRead {v : Value} : s.pointOk (.packSecondRead v) = true ↔
    s.op = 1#2 ∧ s.operandsOk = true ∧ s.inElement = true ∧ ¬ fits s.bitpos.toNat s.w.toNat := by
  simp [State.pointOk, State.spills, and_assoc]

theorem pointOk_packSecondWrite {v : Value} {b : Byte} : s.pointOk (.packSecondWrite v b) = true ↔
    s.op = 1#2 ∧ s.operandsOk = true ∧ s.inElement = true ∧ ¬ fits s.bitpos.toNat s.w.toNat := by
  simp [State.pointOk, State.spills, and_assoc]

theorem pointOk_unpackRead :
    s.pointOk .unpackRead = true ↔ s.op = 2#2 ∧ s.operandsOk = true ∧ s.cursorOk = true := by
  simp [State.pointOk, and_assoc]

theorem pointOk_unpackSecondRead {b0 : Byte} : s.pointOk (.unpackSecondRead b0) = true ↔
    s.op = 2#2 ∧ s.operandsOk = true ∧ s.inElement = true ∧ ¬ fits s.bitpos.toNat s.w.toNat := by
  simp [State.pointOk, State.spills, and_assoc]

theorem pointOk_unpackWrite {val : Byte} : s.pointOk (.unpackWrite val) = true ↔
    s.op = 2#2 ∧ s.operandsOk = true ∧ s.inElement = true ∧ val.toNat ≤ mask s.w.toNat := by
  simp [State.pointOk, and_assoc]

/-! ### The cursor -/

/-- The cursor at the start of a loop (rules R80, R100). -/
theorem startLoop_cursorOk (s : State) : (startLoop s).cursorOk = true :=
  (cursorOk_iff _).mpr ⟨Nat.zero_le _, (Nat.zero_mul _).symm⟩

theorem width_le_eight (hok : s.operandsOk = true) : s.w.toNat ≤ 8 := by
  obtain ⟨⟨-, hw⟩, -, -⟩ := (operandsOk_iff s).mp hok
  exact hw

theorem atElement_of_ok (hok : s.operandsOk = true) (hin : s.inElement = true) : AtElement s := by
  obtain ⟨hw, hl, hbuf, hval⟩ := (operandsOk_iff s).mp hok
  obtain ⟨hcur, hi⟩ := (inElement_iff s).mp hin
  obtain ⟨-, hpos⟩ := (cursorOk_iff s).mp hcur
  exact ⟨hw, hl.trans hbuf, hval, hi, hpos⟩

/-- The cursor after an element step: neither register has wrapped (rule R15). -/
theorem advance_cursorOk (hok : s.operandsOk = true) (hin : s.inElement = true) : (advance s).cursorOk = true := by
  have hat := atElement_of_ok hok hin
  refine (cursorOk_iff _).mpr ⟨?_, ?_⟩
  · rw [advance_i, advance_n, hat.next_index]
    exact hat.index
  · rw [advance_bitpos, advance_i, advance_w, hat.next_cursor, hat.next_index]

end

/-! ### The transitions of a busy block -/

/-- Where the block goes on to, its point is legal (rule R22). -/
theorem TickTo.pointOk {s t : State} {p q : Point} (h : TickTo s p t) (hp : s.pointOk p = true)
    (ht : t.activity = .busy q) : t.pointOk q = true := by
  cases h with
  | answer => cases ht
  | startScan hop hok hs => cases ht; exact pointOk_scan.mpr ⟨hop, hok, hs, Nat.zero_le _⟩
  | startPack hop hok => cases ht; exact pointOk_packSource.mpr ⟨hop, hok, startLoop_cursorOk s⟩
  | startUnpack hop hok => cases ht; exact pointOk_unpackRead.mpr ⟨hop, hok, startLoop_cursorOk s⟩
  | scanRead k hk =>
    obtain ⟨hop, hok, hs, -⟩ := pointOk_scan.mp hp
    cases ht; exact pointOk_scan.mpr ⟨hop, hok, hs, hk⟩
  | scanEnd k =>
    obtain ⟨hop, hok, -, -⟩ := pointOk_scan.mp hp
    cases ht; exact pointOk_packSource.mpr ⟨hop, hok, startLoop_cursorOk s⟩
  | packSource v hi =>
    obtain ⟨hop, hok, hcur⟩ := pointOk_packSource.mp hp
    cases ht; exact pointOk_packFirstRead.mpr ⟨hop, hok, (inElement_iff s).mpr ⟨hcur, hi⟩⟩
  | packFirstRead v b =>
    have hin := pointOk_packFirstRead.mp hp
    cases ht; exact pointOk_packFirstWrite.mpr hin
  | packFit v b k x hk =>
    obtain ⟨hop, hok, hin⟩ := pointOk_packFirstWrite.mp hp
    cases ht; exact pointOk_packSource.mpr ⟨hop, hok, advance_cursorOk hok hin⟩
  | packSpill v b k x hk hf =>
    obtain ⟨hop, hok, hin⟩ := pointOk_packFirstWrite.mp hp
    cases ht; exact pointOk_packSecondRead.mpr ⟨hop, hok, hin, hf⟩
  | packSecondRead v b =>
    have hin := pointOk_packSecondRead.mp hp
    cases ht; exact pointOk_packSecondWrite.mpr hin
  | packSecondWrite v b k x hk =>
    obtain ⟨hop, hok, hin, -⟩ := pointOk_packSecondWrite.mp hp
    cases ht; exact pointOk_packSource.mpr ⟨hop, hok, advance_cursorOk hok hin⟩
  | unpackFit b hi =>
    obtain ⟨hop, hok, hcur⟩ := pointOk_unpackRead.mp hp
    cases ht; exact pointOk_unpackWrite.mpr
      ⟨hop, hok, (inElement_iff s).mpr ⟨hcur, hi⟩, fitValue_le_mask b (width_le_eight hok)⟩
  | unpackSpill b hi hf =>
    obtain ⟨hop, hok, hcur⟩ := pointOk_unpackRead.mp hp
    cases ht; exact pointOk_unpackSecondRead.mpr ⟨hop, hok, (inElement_iff s).mpr ⟨hcur, hi⟩, hf⟩
  | unpackSecondRead b0 b1 =>
    obtain ⟨hop, hok, hin, -⟩ := pointOk_unpackSecondRead.mp hp
    cases ht; exact pointOk_unpackWrite.mpr ⟨hop, hok, hin, spillValue_le_mask b0 b1 (width_le_eight hok)⟩
  | unpackWrite val k v hk =>
    obtain ⟨hop, hok, hin, -⟩ := pointOk_unpackWrite.mp hp
    cases ht; exact pointOk_unpackRead.mpr ⟨hop, hok, advance_cursorOk hok hin⟩

/-- A transition after which the block is still busy has delivered no response (rule R59). -/
theorem TickTo.response_of_busy {s t : State} {p : Point} (h : TickTo s p t) (ht : t.activity ≠ .idle) :
    t.response = s.response := by
  cases h with
  | answer => exact absurd rfl ht
  | _ => rfl

/-- A transition of a busy block keeps the invariant. -/
theorem tick_inv {p : Point} {s t : State} (ha : s.activity = .busy p) (h : tick p s = .next t)
    (hs : s.Inv = true) : t.Inv = true := by
  obtain ⟨hwf, hmem, hact⟩ := (inv_iff s).mp hs
  obtain ⟨hpoint, hresp⟩ := (activityOk_of_busy ha).mp hact
  refine (inv_iff t).mpr ⟨(tick_frame h).params ▸ hwf, tick_memWf h hmem, ?_⟩
  cases ht : t.activity with
  | idle => exact activityOk_of_idle ht
  | busy q =>
    have hgo := tick_cases h
    exact (activityOk_of_busy ht).mpr
      ⟨hgo.pointOk hpoint ht, (hgo.response_of_busy (by simp [ht])).trans hresp⟩

/-! ### The moves of the host -/

/-- No move of the host touches the parameters (rule R17). -/
theorem hostMove_params {m : HostMove} {s t : State} (h : hostMove m s = .next t) : t.params = s.params := by
  cases m with
  | writeSrc index v => obtain ⟨-, rfl⟩ := writeSrc_eq_next.mp h; rfl
  | writeBuf index b => obtain ⟨-, rfl⟩ := writeBuf_eq_next.mp h; rfl
  | writeDst index v => obtain ⟨-, rfl⟩ := writeDst_eq_next.mp h; rfl
  | issue word => exact (exec_frame h).params
  | issueThenReset word k => cases h; rfl
  | reset => cases h; rfl

theorem hostMove_memWf {m : HostMove} {s t : State} (h : hostMove m s = .next t) (hs : s.memWf = true) :
    t.memWf = true := by
  cases m with
  | writeSrc index v => exact writeSrc_memWf h hs
  | writeBuf index b => obtain ⟨hk, rfl⟩ := writeBuf_eq_next.mp h; exact putByte_memWf b hk hs
  | writeDst index v => obtain ⟨hk, rfl⟩ := writeDst_eq_next.mp h; exact putWord_memWf v hk hs
  | issue word => exact exec_memWf h hs
  | issueThenReset word k => cases h; exact hs
  | reset => cases h; exact hs

/-- After a move beside an idle block, the block is idle, or it has just accepted a command (rules R10, R13). -/
theorem hostMove_activityOk {m : HostMove} {s t : State} (h : hostMove m s = .next t) (hs : s.activity = .idle) :
    t.activityOk = true := by
  cases m with
  | writeSrc index v => obtain ⟨-, rfl⟩ := writeSrc_eq_next.mp h; exact activityOk_of_idle hs
  | writeBuf index b => obtain ⟨-, rfl⟩ := writeBuf_eq_next.mp h; exact activityOk_of_idle hs
  | writeDst index v => obtain ⟨-, rfl⟩ := writeDst_eq_next.mp h; exact activityOk_of_idle hs
  | issue word => exact activityOk_of_idle (exec_idle h)
  | issueThenReset word k => cases h; exact (activityOk_of_busy (p := .check) rfl).mpr ⟨rfl, rfl⟩
  | reset => cases h; exact activityOk_of_idle rfl

/-- A move that runs no command to its end leaves no response behind that was not there (rule R17). -/
theorem hostMove_response {m : HostMove} {s t : State} (h : hostMove m s = .next t) (hm : ∀ word, m ≠ .issue word)
    (hs : s.response = none) : t.response = none := by
  cases m with
  | writeSrc index v => obtain ⟨-, rfl⟩ := writeSrc_eq_next.mp h; exact hs
  | writeBuf index b => obtain ⟨-, rfl⟩ := writeBuf_eq_next.mp h; exact hs
  | writeDst index v => obtain ⟨-, rfl⟩ := writeDst_eq_next.mp h; exact hs
  | issue word => exact absurd rfl (hm word)
  | issueThenReset word k => cases h; rfl
  | reset => cases h; rfl

/-- No step changes the parameters (rule R17). -/
theorem step_params {s t : State} (h : step s = .next t) : t.params = s.params := by
  cases step_cases h with
  | reset ht => rw [ht, performReset_params]
  | tick p planned ha htick => exact (tick_frame htick).params
  | wait planned ha ht => subst ht; rfl
  | host m rest ha hg hmove => exact (hostMove_params hmove).trans rfl

end Sys2Proof.Machine
end

section
/-! PROOFS. The outcome of a command depends on its command, the parameters and the memories only (rule R11). -/

namespace Sys2Proof.Machine

/-- Where the first run is answered, the second is, with the same response and the same memories. -/
def SameEnd (o o' : Result State) : Prop := ∀ t, o = .next t → ∃ v, o' = .next v ∧ SameOutcome v t

/-- The state with another cursor, other moves of the host and another planned reset: after acceptance, all that is left
of the state before but the memories and the parameters. -/
def State.withRest (i : CountOperand) (bitpos : BitPosition) (moves : List HostMove) (reset : Option Nat)
    (s : State) : State :=
  { s with i := i, bitpos := bitpos, agenda := moves, resetIn := reset }

/-- Acceptance overwrites every field but these (rule R13). -/
theorem accept_eq_withRest {s u : State} (c : Instr) (hparams : s.params = u.params) (hsrc : s.src = u.src)
    (hbuf : s.buf = u.buf) (hdst : s.dst = u.dst) :
    accept c u = (accept c s).withRest u.i u.bitpos u.agenda u.resetIn := by
  simp only [accept, State.withRest, hparams, hsrc, hbuf, hdst]

section
variable {i : CountOperand} {bitpos : BitPosition} {moves : List HostMove} {reset : Option Nat}

/-- An element loop sets the cursor before it reads it. -/
theorem elementLoop_withRest {f : State → Result State}
    (hf : ∀ s, f (s.withHost moves reset) = mapNext (State.withHost moves reset) (f s)) (s : State) :
    SameEnd (elementLoop f s) (elementLoop f (s.withRest i bitpos moves reset)) := by
  intro t ht
  obtain ⟨u, hu, ht⟩ := andThen_eq_next.mp ht
  cases ht
  refine ⟨respondOk u.needed (u.withHost moves reset), ?_, rfl, rfl, rfl, rfl⟩
  have hrun := elements_withHost moves reset hf s.n.toNat (startLoop s)
  rw [hu] at hrun
  exact andThen_eq_next.mpr ⟨_, hrun, rfl⟩

/-- The pre-scan reads SRC, the parameters and `W` alone (rule R82). -/
theorem scan_withRest (s : State) (count k : Nat) :
    scan (s.withRest i bitpos moves reset) count k = scan s count k := by
  induction count generalizing k with
  | zero => rfl
  | succ count ih =>
    refine congrArg (andThen (readSrc s k)) (funext fun v => ?_)
    rw [ih]
    rfl

theorem strictScan_withRest (s : State) : strictScan (s.withRest i bitpos moves reset) = strictScan s :=
  if_congr Iff.rfl (scan_withRest s _ _) rfl

theorem packBody_withRest (s : State) : SameEnd (packBody s) (packBody (s.withRest i bitpos moves reset)) := by
  intro t ht
  obtain ⟨hit, hscan, ht⟩ := andThen_eq_next.mp ht
  have hscan' : strictScan (s.withRest i bitpos moves reset) = .next hit := (strictScan_withRest s).trans hscan
  cases hit with
  | some k =>
    cases ht
    exact ⟨_, andThen_eq_next.mpr ⟨_, hscan', rfl⟩, rfl, rfl, rfl, rfl⟩
  | none =>
    obtain ⟨v, hv, hsame⟩ := elementLoop_withRest (packElement_withHost moves reset) s t ht
    exact ⟨v, andThen_eq_next.mpr ⟨_, hscan', hv⟩, hsame⟩

theorem validated_withRest {body : State → Result State} (s : State)
    (hb : SameEnd (body s) (body (s.withRest i bitpos moves reset))) :
    SameEnd (validated s body) (validated (s.withRest i bitpos moves reset) body) := by
  intro t ht
  rcases validated_cases s body with ⟨hw, e⟩ | ⟨hw, hl, e⟩ | ⟨-, -, -, e⟩ | ⟨hw, hl, hc, e⟩ <;> rw [e] at ht
  · cases ht
    exact ⟨_, validated_invalidBitWidth (s := s.withRest i bitpos moves reset) hw, rfl, rfl, rfl, rfl⟩
  · cases ht
    exact ⟨_, validated_bufferTooSmall (s := s.withRest i bitpos moves reset) hw hl, rfl, rfl, rfl, rfl⟩
  · cases ht
  · rw [validated_body (s := s.withRest i bitpos moves reset) hw hl hc]
    exact hb t ht

end

end Sys2Proof.Machine
end

section
/-! PROOFS. The statements about the state. -/

namespace Sys2Proof.Machine

/-- Settles O42, by the four kinds of a step. -/
theorem stepKeepsInvariant : Obligations.StepKeepsInvariant := by
  unfold Obligations.StepKeepsInvariant
  intro s t hs h
  obtain ⟨hwf, hmem, -⟩ := (inv_iff s).mp hs
  cases step_cases h with
  | reset ht => subst ht; exact (inv_iff _).mpr ⟨hwf, hmem, activityOk_of_idle rfl⟩
  | tick p planned ha htick => exact tick_inv (s := s.withHost s.agenda planned) ha htick hs
  | wait planned ha ht => subst ht; exact (inv_iff _).mpr ⟨hwf, hmem, activityOk_of_idle ha⟩
  | host m rest ha hg hmove =>
    exact (inv_iff t).mpr ⟨step_params h ▸ hwf, hostMove_memWf hmove hmem, hostMove_activityOk hmove ha⟩

/-- Settles O52, by the four kinds of a step. -/
theorem parametersStaticResponseTransient : Obligations.ParametersStaticResponseTransient := by
  unfold Obligations.ParametersStaticResponseTransient
  intro s t h
  refine ⟨step_params h, ?_⟩
  cases step_cases h with
  | reset ht => subst ht; exact ⟨fun _ _ => rfl, fun _ _ _ => rfl⟩
  | tick p planned ha htick =>
    refine ⟨fun hidle => ?_, fun _ ht hresp => ?_⟩
    · cases ha.symm.trans hidle
    · exact ((tick_cases htick).response_of_busy ht).trans hresp
  | wait planned ha ht => subst ht; exact ⟨fun _ _ => rfl, fun _ _ _ => rfl⟩
  | host m rest ha hg hmove =>
    refine ⟨fun _ hissue => ?_, fun hbusy => absurd ha hbusy⟩
    exact hostMove_response hmove (fun word hm => hissue word rest (hm ▸ hg)) rfl

/-- Settles O24: the frame holds for each way a command can end. -/
theorem commandFrame : Obligations.CommandFrame := by
  unfold Obligations.CommandFrame
  intro c s t h
  have hf := exec_frame h
  exact ⟨hf.src, hf.params, hf.agenda, hf.resetIn, hf.op, hf.w, hf.n, hf.len, hf.buf, hf.dst, hf.bufBeyond,
    hf.dstBeyond⟩

/-- Settles O21: operands of 32 bits cannot exceed the default capacities (rule R181). -/
theorem everyCommandEndsWithDefaultCapacities : Obligations.EveryCommandEndsWithDefaultCapacities := by
  unfold Obligations.EveryCommandEndsWithDefaultCapacities
  intro c s hbuf hval
  obtain hends | ⟨-, hbeyond⟩ := exec_answers_or_refused c s
  · exact hends
  · exact absurd ⟨hbuf ▸ c.bufLen.isLt.le, hval ▸ c.count.isLt.le⟩ hbeyond

/-- Settles O39: presenting the word is the host's next move, and that move is the command. -/
theorem stepRunsPresentedCommand : Obligations.StepRunsPresentedCommand := by
  unfold Obligations.StepRunsPresentedCommand
  intro s word rest ha hr hg
  exact step_idle_host ha hr hg

/-- Settles O53: each move is one checked write, and a read returns what was written last (rule R43). -/
theorem hostWritesItsMemories : Obligations.HostWritesItsMemories := by
  unfold Obligations.HostWritesItsMemories
  intro s index rest ha hr
  refine ⟨fun b hg hk => ?_, fun v hg hk => ?_, fun v hg hk => ?_⟩
  · exact ⟨_, (step_idle_host ha hr hg).trans (writeBuf_eq_next.mpr ⟨hk, rfl⟩),
      fun k => bufByte_write s index.toNat k b⟩
  · exact ⟨_, (step_idle_host ha hr hg).trans (writeSrc_eq_next.mpr ⟨hk, rfl⟩),
      fun k => srcWord_write s index.toNat k v⟩
  · exact ⟨_, (step_idle_host ha hr hg).trans (writeDst_eq_next.mpr ⟨hk, rfl⟩),
      fun k => dstWord_write s index.toNat k v⟩

/-- Settles O51, from the run of `k` element steps (rule R15). -/
theorem cursorCountsElements : Obligations.CursorCountsElements := by
  unfold Obligations.CursorCountsElements
  intro s k hw hb hv hk
  have hn : s.n.toNat < 2 ^ 32 := s.n.isLt
  have hindex : (BitVec.ofNat 32 (0 + k)).toNat = k := by
    rw [Nat.zero_add, BitVec.toNat_ofNat, Nat.mod_eq_of_lt (by omega)]
  have hcursor : (BitVec.ofNat 35 ((0 + k) * s.w.toNat)).toNat = k * s.w.toNat := by
    have hle : k * s.w.toNat ≤ (2 ^ 32 - 1) * 8 := Nat.mul_le_mul (by omega) hw.2
    rw [Nat.zero_add, BitVec.toNat_ofNat, Nat.mod_eq_of_lt (by omega)]
  have hstart : (startLoop s).i.toNat + k ≤ (startLoop s).n.toNat := by simpa using hk
  have hpos : (startLoop s).bitpos.toNat = (startLoop s).i.toNat * (startLoop s).w.toNat := by simp
  constructor
  · obtain ⟨m, hrun, -⟩ := elements_pack k (s := startLoop s) hw hb hv hstart hpos
    exact ⟨_, hrun, hindex, hcursor⟩
  · obtain ⟨m, hrun, -, -⟩ := elements_unpack k (s := startLoop s) hw hb hv hstart hpos
    exact ⟨_, hrun, hindex, hcursor⟩

/-- Settles O50: the transition of a busy block commutes with replacing the host's moves. -/
theorem busyBlockIgnoresHost : Obligations.BusyBlockIgnoresHost := by
  unfold Obligations.BusyBlockIgnoresHost
  intro s t p ha hr h
  rw [step_busy ha hr] at h
  have hf := tick_frame h
  have hreset : t.resetIn = s.resetIn.map Nat.pred := hf.resetIn
  refine ⟨hf.op, hf.w, hf.n, hf.len, hf.agenda, fun moves => ?_⟩
  calc step { s with agenda := moves }
      = tick p ((s.withHost s.agenda (s.resetIn.map Nat.pred)).withHost moves (s.resetIn.map Nat.pred)) :=
        step_busy (s := { s with agenda := moves }) ha hr
    _ = .next (t.withHost moves (s.resetIn.map Nat.pred)) := by rw [tick_withHost, h]; rfl
    _ = .next { t with agenda := moves } := by rw [← hreset]; rfl

/-- Settles O49: after acceptance the two states differ in what the operation overwrites or never reads. -/
theorem outcomeDependsOnMemoriesOnly : Obligations.OutcomeDependsOnMemoriesOnly := by
  unfold Obligations.OutcomeDependsOnMemoriesOnly
  intro c s u t hparams hsrc hbuf hdst h
  have hacc := accept_eq_withRest c hparams hsrc hbuf hdst
  cases c with
  | size w n len =>
    cases h
    exact ⟨_, exec_size w n len u, rfl, hsrc.symm, hbuf.symm, hdst.symm⟩
  | reserved w n len =>
    cases h
    exact ⟨_, exec_reserved w n len u, rfl, hsrc.symm, hbuf.symm, hdst.symm⟩
  | pack w n len =>
    rw [exec_pack, hacc]
    exact validated_withRest _ (packBody_withRest _) t h
  | unpack w n len =>
    rw [exec_unpack, hacc]
    exact validated_withRest _ (elementLoop_withRest (unpackElement_withHost _ _) _) t h

end Sys2Proof.Machine
end

section
/-! PROOFS. The checked accesses: what a read depends on (rule R43), and that neither validation nor a transition from a
legal point leaves the memory that exists (rule R41). -/

namespace Sys2Proof.Machine

/-! ### Checked reads -/

/-- A checked read of BUF depends on the parameters and the cell alone. -/
theorem readBuf_congr {s t : State} {k : Nat} (hp : t.params = s.params) (hk : t.bufByte k = s.bufByte k) :
    readBuf t k = readBuf s k := by
  simp only [readBuf, hp, hk]

/-- A checked read of SRC depends on the parameters and the cell alone. -/
theorem readSrc_congr {s t : State} {k : Nat} (hp : t.params = s.params) (hk : t.srcWord k = s.srcWord k) :
    readSrc t k = readSrc s k := by
  simp only [readSrc, hp, hk]

/-! ### No access outside the memory that exists -/

theorem noFault_next {α : Type} (a : α) : NoFault (.next a) := fun _ h => nomatch h

theorem noFault_refused {α : Type} (r : Refusal) : NoFault (α := α) (.refused r) := fun _ h => nomatch h

/-- An operation that answers faults only in what follows it. -/
theorem noFault_andThen {α β : Type} {o : Result α} {f : α → Result β} {a : α} (ho : o = .next a)
    (hf : NoFault (f a)) : NoFault (andThen o f) := by
  rw [ho]; exact hf

/-- Validation itself accesses nothing (rules R81, R101). -/
theorem validated_noFault {s : State} {body : State → Result State} (hb : NoFault (body s)) :
    NoFault (validated s body) := by
  rcases validated_cases s body with ⟨-, e⟩ | ⟨-, -, e⟩ | ⟨-, -, -, e⟩ | ⟨-, -, -, e⟩ <;> rw [e]
  · exact noFault_next _
  · exact noFault_next _
  · exact noFault_refused _
  · exact hb

theorem tickCheck_noFault (s : State) : NoFault (tickCheck s) := by
  unfold tickCheck
  split
  · exact noFault_next _
  split
  · exact validated_noFault (noFault_next _)
  split
  · exact validated_noFault (noFault_next _)
  · exact noFault_next _

/-- The pre-scan reads below `N`, which `VAL_CAP` bounds (rules R82, R181). -/
theorem tickScan_noFault {s : State} (hval : s.n.toNat ≤ s.params.valCap) (k : Nat) : NoFault (tickScan s k) := by
  unfold tickScan
  split
  · next hk => exact noFault_andThen (readSrc_eq_next.mpr ⟨hk.trans_le hval, rfl⟩) (noFault_next _)
  · exact noFault_next _

/-- A transition from a legal point accesses only cells that exist: the operands have passed the checks, and the cursor
stands at an element below `N` (rules R41, R90, R107). -/
theorem tick_noFault {s : State} {p : Point} (hp : s.pointOk p = true) : NoFault (tick p s) := by
  cases p with
  | check => exact tickCheck_noFault s
  | scan k =>
    obtain ⟨-, hok, -, -⟩ := pointOk_scan.mp hp
    obtain ⟨-, -, -, hval⟩ := (operandsOk_iff s).mp hok
    exact tickScan_noFault hval k
  | packSource =>
    obtain ⟨-, hok, hcur⟩ := pointOk_packSource.mp hp
    simp only [tick]
    split
    · next hi =>
      have hat := atElement_of_ok hok ((inElement_iff s).mpr ⟨hcur, hi⟩)
      exact noFault_andThen (readSrc_eq_next.mpr ⟨hat.source_lt, rfl⟩) (noFault_next _)
    · exact noFault_next _
  | packFirstRead v =>
    obtain ⟨-, hok, hin⟩ := pointOk_packFirstRead.mp hp
    have hat := atElement_of_ok hok hin
    exact noFault_andThen (readBuf_eq_next.mpr ⟨hat.first_lt, rfl⟩) (noFault_next _)
  | packFirstWrite v b =>
    obtain ⟨-, hok, hin⟩ := pointOk_packFirstWrite.mp hp
    have hat := atElement_of_ok hok hin
    exact noFault_andThen (writeBuf_eq_next.mpr ⟨hat.first_lt, rfl⟩) (noFault_next _)
  | packSecondRead v =>
    obtain ⟨-, hok, hin, hspill⟩ := pointOk_packSecondRead.mp hp
    have hat := atElement_of_ok hok hin
    exact noFault_andThen (readBuf_eq_next.mpr ⟨hat.second_lt hspill, rfl⟩) (noFault_next _)
  | packSecondWrite v b =>
    obtain ⟨-, hok, hin, hspill⟩ := pointOk_packSecondWrite.mp hp
    have hat := atElement_of_ok hok hin
    exact noFault_andThen (writeBuf_eq_next.mpr ⟨hat.second_lt hspill, rfl⟩) (noFault_next _)
  | unpackRead =>
    obtain ⟨-, hok, hcur⟩ := pointOk_unpackRead.mp hp
    simp only [tick]
    split
    · next hi =>
      have hat := atElement_of_ok hok ((inElement_iff s).mpr ⟨hcur, hi⟩)
      exact noFault_andThen (readBuf_eq_next.mpr ⟨hat.first_lt, rfl⟩) (noFault_next _)
    · exact noFault_next _
  | unpackSecondRead b0 =>
    obtain ⟨-, hok, hin, hspill⟩ := pointOk_unpackSecondRead.mp hp
    have hat := atElement_of_ok hok hin
    exact noFault_andThen (readBuf_eq_next.mpr ⟨hat.second_lt hspill, rfl⟩) (noFault_next _)
  | unpackWrite val =>
    obtain ⟨-, hok, hin, -⟩ := pointOk_unpackWrite.mp hp
    have hat := atElement_of_ok hok hin
    exact noFault_andThen (writeDst_eq_next.mpr ⟨hat.source_lt, rfl⟩) (noFault_next _)

end Sys2Proof.Machine
end

section
/-! PROOFS. BUF under a command (rule R39), and PACK's element step access by access (rules R38, R86). -/

namespace Sys2Proof.Machine

/-! ### BUF under a command -/

/-- A command that is answered leaves BUF as it was, or it is a PACK that has run to its end. -/
theorem exec_buf_unchanged_or_packed {c : Instr} {s t : State} (h : exec c s = .next t) :
    t.buf = s.buf ∨ ∃ m, PackDone c s t m := by
  cases exec_ends c s with
  | size _ he => cases he.symm.trans h; exact .inl rfl
  | reserved _ he => cases he.symm.trans h; exact .inl rfl
  | invalidBitWidth _ _ he => cases he.symm.trans h; exact .inl rfl
  | bufferTooSmall _ _ _ he => cases he.symm.trans h; exact .inl rfl
  | refused _ _ _ _ he => cases he.symm.trans h
  | valueOutOfRange _ _ _ _ _ _ _ he => cases he.symm.trans h; exact .inl rfl
  | pack _ m _ _ _ hd he => cases he.symm.trans h; exact .inr ⟨m, hd⟩
  | unpack _ _ _ _ hd he =>
    cases he.symm.trans h
    obtain ⟨rfl, -, -⟩ := hd
    exact .inl rfl

/-! ### The accesses of PACK's element step -/

/-- The state after the first byte write of PACK's element step at the cursor (rules R84, R86). -/
def State.packFirstByte (s : State) : State :=
  s.putByte (byteIndex s.bitpos.toNat)
    (s.bufByte (byteIndex s.bitpos.toNat) ||| firstOperand (s.srcWord s.i.toNat) s.bitpos.toNat s.w.toNat)

section
variable {s : State}

/-- In the fit case the first byte write is the whole change of BUF. -/
theorem packedStep_of_fits (hf : fits s.bitpos.toNat s.w.toNat) : packedStep s = s.packFirstByte.buf := by
  simp only [packedStep, if_pos hf, State.packFirstByte]

/-- In the spill case the next byte, as it stands after the first write, is changed as well. -/
theorem packedStep_of_spills (hf : ¬ fits s.bitpos.toNat s.w.toNat) :
    packedStep s = (s.packFirstByte.putByte (byteIndex s.bitpos.toNat + 1)
      (s.packFirstByte.bufByte (byteIndex s.bitpos.toNat + 1) |||
        secondOperand (s.srcWord s.i.toNat) s.bitpos.toNat s.w.toNat)).buf := by
  simp only [packedStep, if_neg hf, State.packFirstByte, State.bufByte]

/-- The first byte write leaves every other byte alone. -/
theorem packFirstByte_other {k : Nat} (hk : k ≠ byteIndex s.bitpos.toNat) :
    s.packFirstByte.bufByte k = s.bufByte k :=
  (bufByte_write s _ k _).trans (if_neg hk)

/-- In the spill case the second byte write leaves the first byte alone. -/
theorem packedStep_first (hf : ¬ fits s.bitpos.toNat s.w.toNat) :
    s.packFirstByte.bufByte (byteIndex s.bitpos.toNat) =
      (advance { s with buf := packedStep s }).bufByte (byteIndex s.bitpos.toNat) := by
  rw [packedStep_of_spills hf]
  exact ((bufByte_write s.packFirstByte _ _ _).trans (if_neg (by omega))).symm

/-- The first access reads SRC. -/
theorem ticks_one_packSource (h : AtElement s) :
    ticks 1 (s.goto .packSource) = .next (s.goto (.packFirstRead (s.srcWord s.i.toNat))) := by
  rw [ticks_goto, tick_packSource h, andThen_next, ticks_zero]

/-- The second access reads the lower-indexed byte. -/
theorem ticks_two_packSource (h : AtElement s) :
    ticks 2 (s.goto .packSource) =
      .next (s.goto (.packFirstWrite (s.srcWord s.i.toNat) (s.bufByte (byteIndex s.bitpos.toNat)))) := by
  rw [ticks_add 1 1, ticks_one_packSource h, andThen_next, ticks_goto, tick_packFirstRead h, andThen_next, ticks_zero]

/-- The third access writes it; that ends the fit step. -/
theorem ticks_three_packSource (h : AtElement s) :
    ticks 3 (s.goto .packSource) = .next (if fits s.bitpos.toNat s.w.toNat
      then (advance s.packFirstByte).goto .packSource
      else s.packFirstByte.goto (.packSecondRead (s.srcWord s.i.toNat))) := by
  rw [ticks_add 2 1, ticks_two_packSource h, andThen_next, ticks_goto, tick_packFirstWrite h]
  rfl

/-- In the spill case the fourth access reads the next byte, still with its old content. -/
theorem ticks_four_packSource (h : AtElement s) (hf : ¬ fits s.bitpos.toNat s.w.toNat) :
    ticks 4 (s.goto .packSource) = .next (s.packFirstByte.goto
      (.packSecondWrite (s.srcWord s.i.toNat) (s.bufByte (byteIndex s.bitpos.toNat + 1)))) := by
  rw [ticks_add 3 1, ticks_three_packSource h, if_neg hf, andThen_next, ticks_goto,
    tick_packSecondRead (s := s.packFirstByte) (h.second_lt hf), andThen_next, ticks_zero]
  exact congrArg (fun b => Host.Outcome.next (s.packFirstByte.goto (.packSecondWrite _ b)))
    (packFirstByte_other (Nat.succ_ne_self _))

/-- The fifth access writes it, and the block stands where the element step as one transition ends. -/
theorem ticks_five_packSource (h : AtElement s) (hf : ¬ fits s.bitpos.toNat s.w.toNat) :
    ticks 5 (s.goto .packSource) = .next ((advance { s with buf := packedStep s }).goto .packSource) := by
  rw [ticks_add 4 1, ticks_four_packSource h hf, andThen_next, ticks_goto,
    tick_packSecondWrite (s := s.packFirstByte) (h.second_lt hf), andThen_next, ticks_zero, packedStep_of_spills hf,
    packFirstByte_other (Nat.succ_ne_self _)]
  rfl

end

end Sys2Proof.Machine
end

section
/-! PROOFS. The statements about the memories. -/

namespace Sys2Proof.Machine

/-- Settles O20: every command is answered or refused. -/
theorem commandsNeverLeaveMemory : Obligations.CommandsNeverLeaveMemory := by
  unfold Obligations.CommandsNeverLeaveMemory
  intro c s
  obtain ⟨t, -, h, -, -⟩ | ⟨h, -⟩ := exec_answers_or_refused c s <;> rw [h]
  · exact noFault_next t
  · exact noFault_refused _

/-- Settles O23: where BUF changes at all, bits are ORed in (rule R39). -/
theorem noCommandClearsBufferBit : Obligations.NoCommandClearsBufferBit := by
  unfold Obligations.NoCommandClearsBufferBit
  intro c s t p h hset
  obtain hbuf | ⟨m, rfl, hbits⟩ := exec_buf_unchanged_or_packed h
  · simpa only [State.bufBit, State.bufByte, hbuf] using hset
  · exact (hbits p).trans (by rw [hset, Bool.true_or])

/-- Settles O44: the invariant puts a busy block at a legal point, and a planned reset does not move it. -/
theorem busyBlockNeverFaults : Obligations.BusyBlockNeverFaults := by
  unfold Obligations.BusyBlockNeverFaults
  intro s p hs ha
  obtain ⟨-, -, hact⟩ := (inv_iff s).mp hs
  obtain ⟨hpoint, -⟩ := (activityOk_of_busy ha).mp hact
  by_cases hr : s.resetIn = some 0
  · rw [step_reset_due hr]
    exact noFault_next _
  · rw [step_busy ha hr]
    exact tick_noFault (s := s.withHost s.agenda (s.resetIn.map Nat.pred)) hpoint

/-- Settles O56, access by access: three in the fit case, five in the spill case. -/
theorem packStepWritesLowerByteFirst : Obligations.PackStepWritesLowerByteFirst := by
  unfold Obligations.PackStepWritesLowerByteFirst
  intro s hw hb hv hi hc
  have h : AtElement s := ⟨hw, hb, hv, hi, hc⟩
  refine ⟨ticks_one_packSource h, ticks_two_packSource h, _, _, packElement_next h, ticks_three_packSource h,
    fun hf => ?_, fun hf => ?_⟩
  · rw [if_pos hf, packedStep_of_fits hf]
    rfl
  · rw [if_neg hf]
    exact ⟨rfl, packedStep_first hf, fun k hk => packFirstByte_other hk, ticks_four_packSource h hf,
      ticks_five_packSource h hf⟩

/-- Settles O54, from the law of a read after a write in each space. -/
theorem spacesArePlainStorage : Obligations.SpacesArePlainStorage := by
  unfold Obligations.SpacesArePlainStorage
  intro s t k
  refine ⟨fun b h => ?_, fun v h => ?_, fun v h => ?_, fun hk => ?_, fun hk => ?_⟩
  · obtain ⟨hk, rfl⟩ := writeBuf_eq_next.mp h
    have hread := fun j => bufByte_write s k j b
    exact ⟨readBuf_eq_next.mpr ⟨hk, ((hread k).trans (if_pos rfl)).symm⟩,
      fun j hj => readBuf_congr rfl ((hread j).trans (if_neg hj)), rfl, rfl⟩
  · obtain ⟨-, rfl⟩ := writeDst_eq_next.mp h
    have hread := fun j => dstWord_write s k j v
    exact ⟨(hread k).trans (if_pos rfl), fun j hj => (hread j).trans (if_neg hj), rfl, rfl⟩
  · obtain ⟨hk, rfl⟩ := writeSrc_eq_next.mp h
    have hread := fun j => srcWord_write s k j v
    exact ⟨readSrc_eq_next.mpr ⟨hk, ((hread k).trans (if_pos rfl)).symm⟩,
      fun j hj => readSrc_congr rfl ((hread j).trans (if_neg hj)), rfl, rfl⟩
  · have hout : ¬ k < s.params.bufCap := not_lt.mpr hk
    exact ⟨if_neg hout, fun b => if_neg hout⟩
  · have hout : ¬ k < s.params.valCap := not_lt.mpr hk
    exact ⟨if_neg hout, fun v => if_neg hout, fun v => if_neg hout⟩

end Sys2Proof.Machine
end

section
/-! PROOFS. The decoder and the encoder are inverse to each other, on the word, on bytes and on the table's numbering
(rules R56, R57, R58), and the lines of the assembler (rule R60). -/

namespace Sys2Proof

/-! ### The fields of an encoded command (rule R56) -/

/-- A field put in front of `m` lower bits stands at bit `m` of the number. -/
theorem toNat_append_eq_add {n m : Nat} (x : BitVec n) (y : BitVec m) :
    (x ++ y).toNat = y.toNat + 2 ^ m * x.toNat := by
  rw [BitVec.toNat_append, ← Nat.shiftLeft_add_eq_or_of_lt y.isLt, Nat.shiftLeft_eq]
  ring

/-- The word of a command as one number. -/
theorem encode_toNat (i : Instr) :
    (encode i).toNat =
      i.opCode.toNat + 2 ^ 2 * i.bitWidth.toNat + 2 ^ 10 * i.count.toNat + 2 ^ 42 * i.bufLen.toNat := by
  rw [encode, toNat_append_eq_add, toNat_append_eq_add, toNat_append_eq_add]
  ring

@[simp] theorem opField_encode (i : Instr) : opField (encode i) = i.opCode := by
  refine BitVec.eq_of_toNat_eq ?_
  rw [opField_toNat, encode_toNat]
  omega

@[simp] theorem bitWidthField_encode (i : Instr) : bitWidthField (encode i) = i.bitWidth := by
  refine BitVec.eq_of_toNat_eq ?_
  rw [bitWidthField_toNat, encode_toNat]
  omega

@[simp] theorem countField_encode (i : Instr) : countField (encode i) = i.count := by
  refine BitVec.eq_of_toNat_eq ?_
  rw [countField_toNat, encode_toNat]
  omega

@[simp] theorem bufLenField_encode (i : Instr) : bufLenField (encode i) = i.bufLen := by
  refine BitVec.eq_of_toNat_eq ?_
  rw [bufLenField_toNat, encode_toNat]
  omega

/-! ### The fields of a decoded word (rule R57) -/

/-- There are four operation codes (rule R57). -/
theorem opCode_cases (op : BitVec 2) : op = 0#2 ∨ op = 1#2 ∨ op = 2#2 ∨ op = 3#2 := by
  revert op; decide

section
variable (op : BitVec 2) (w : WidthOperand) (n len : CountOperand)

@[simp] theorem ofFields_opCode : (Instr.ofFields op w n len).opCode = op := by
  rcases opCode_cases op with rfl | rfl | rfl | rfl <;> rfl

@[simp] theorem ofFields_bitWidth : (Instr.ofFields op w n len).bitWidth = w := by
  rcases opCode_cases op with rfl | rfl | rfl | rfl <;> rfl

@[simp] theorem ofFields_count : (Instr.ofFields op w n len).count = n := by
  rcases opCode_cases op with rfl | rfl | rfl | rfl <;> rfl

@[simp] theorem ofFields_bufLen : (Instr.ofFields op w n len).bufLen = len := by
  rcases opCode_cases op with rfl | rfl | rfl | rfl <;> rfl

end

/-! ### The word and back (rule R58 (d)) -/

@[simp] theorem decode_encode (i : Instr) : decode (encode i) = i := by
  simp [decode]

@[simp] theorem encode_decode (word : CmdWord) : encode (decode word) = word := by
  refine BitVec.eq_of_toNat_eq ?_
  have hfields : (encode (decode word)).toNat = (opField word).toNat + 2 ^ 2 * (bitWidthField word).toNat +
      2 ^ 10 * (countField word).toNat + 2 ^ 42 * (bufLenField word).toNat := by simp [encode_toNat, decode]
  rw [hfields, opField_toNat, bitWidthField_toNat, countField_toNat, bufLenField_toNat]
  omega

/-- The two low bits of a word are its operation code (rules R57, R61). -/
theorem decode_of_mod_four {word : CmdWord} {op : Nat} (h : word.toNat % 4 = op) :
    decode word =
      Instr.ofFields (BitVec.ofNat 2 op) (bitWidthField word) (countField word) (bufLenField word) := by
  have hop : opField word = BitVec.ofNat 2 op := by
    refine BitVec.eq_of_toNat_eq ?_
    rw [opField_toNat, BitVec.toNat_ofNat]
    omega
  rw [decode, hop]

/-! ### Bytes and the table's numbering (log entry 6) -/

/-- The ten bytes of a 74-bit number hold the command of that word, and nothing is left over. -/
theorem decodeBytes_bytesOfNumber {x : Nat} (h : x < 2 ^ 74) :
    decodeBytes (bytesOfNumber commandBytes x) = .ok (decode (BitVec.ofNat 74 x), []) := by
  have htake : (bytesOfNumber commandBytes x).take commandBytes = bytesOfNumber commandBytes x :=
    List.take_of_length_le (length_bytesOfNumber _ _).le
  have hdrop : (bytesOfNumber commandBytes x).drop commandBytes = [] :=
    List.drop_of_length_le (length_bytesOfNumber _ _).le
  have hnumber : numberOfBytes (bytesOfNumber commandBytes x) = x := by
    rw [numberOfBytes_bytesOfNumber, commandBytes]
    exact Nat.mod_eq_of_lt (by omega)
  simp only [decodeBytes, length_bytesOfNumber, lt_irrefl, if_false, htake, hdrop, hnumber, if_pos h]

/-- A 74-bit number of the table is the command of that word. -/
theorem decodeTableWord_of_lt {x : Nat} (h : x < 2 ^ 74) :
    decodeTableWord 80 x = some (decode (BitVec.ofNat 74 x)) := by
  have hmod : x % 2 ^ 80 = x := Nat.mod_eq_of_lt (by omega)
  have hlt : x < 2 ^ 80 := by omega
  simp only [decodeTableWord, hmod, if_pos hlt, decodeBytes_bytesOfNumber h]

/-! ### Assembler lines (rule R60) -/

/-- A line whose four fields fit decodes to the command of its record. -/
theorem assemble_decode {line : AsmLine} (hop : line.record.op < 4) (hw : line.record.bitWidth < 2 ^ 8)
    (hn : line.record.count < 2 ^ 32) (hlen : line.record.bufLen < 2 ^ 32) :
    (assemble line).map decode = some line.record.command := by
  have hwf : line.record.wf = true := (RawCommand.wf_iff _).mpr ⟨hop, hw, hn, hlen⟩
  simp [assemble, hwf]

/-! ### The statements about the encoding -/

/-- Settles O2: the fields of the word, read back, are the command's. -/
theorem decodeInvertsEncode : Obligations.DecodeInvertsEncode := by
  unfold Obligations.DecodeInvertsEncode
  intro i
  have hword : BitVec.ofNat 74 (encode i).toNat = encode i := by simp
  refine ⟨decode_encode i, ?_, ?_⟩
  · rw [decodeBytes_bytesOfNumber (encode i).isLt, hword, decode_encode]
  · rw [decodeTableWord_of_lt (encode i).isLt, hword, decode_encode]

/-- Settles O3: encoding is a bijection with the decoder as its inverse. -/
theorem everyWordEncodesOneCommand : Obligations.EveryWordEncodesOneCommand := by
  unfold Obligations.EveryWordEncodesOneCommand
  refine fun word => ⟨encode_decode word, fun i hi => ?_⟩
  rw [← hi, decode_encode]

/-- Settles O6: a line that fits decodes to its record's command, and the record of a pseudo-instruction is that of
the line it stands for. -/
theorem assemblerLinesDecode : Obligations.AssemblerLinesDecode := by
  unfold Obligations.AssemblerLinesDecode
  refine ⟨fun w n hw hn => ?_, fun w n len hw hn hlen => ⟨?_, ?_, ?_, ?_, ?_, ?_⟩, fun w n _ => ⟨rfl, rfl⟩⟩
  · exact assemble_decode (line := .size w n) (by decide : 0 < 4) hw hn (by decide : 0 < 2 ^ 32)
  · exact assemble_decode (line := .pack w n len) (by decide : 1 < 4) hw hn hlen
  · exact assemble_decode (line := .unpack w n len) (by decide : 2 < 4) hw hn hlen
  · exact assemble_decode (line := .cmd 0 w n len) (by decide : 0 < 4) hw hn hlen
  · exact assemble_decode (line := .cmd 1 w n len) (by decide : 1 < 4) hw hn hlen
  · exact assemble_decode (line := .cmd 2 w n len) (by decide : 2 < 4) hw hn hlen
  · exact assemble_decode (line := .cmd 3 w n len) (by decide : 3 < 4) hw hn hlen

/-- Settles O1: the decoder evaluated on the six fixed words. -/
theorem specWordsDecode : Obligations.SpecWordsDecode := by
  unfold Obligations.SpecWordsDecode
  decide

/-- Settles O4, field by field of the concatenation. -/
theorem commandWordLayout : Obligations.CommandWordLayout := by
  unfold Obligations.CommandWordLayout
  exact encode_toNat

/-- Settles O5: the operation code is the word modulo 4. -/
theorem lowBitsSelectOperation : Obligations.LowBitsSelectOperation := by
  unfold Obligations.LowBitsSelectOperation
  exact fun word => ⟨fun h => ⟨_, _, _, decode_of_mod_four h⟩, fun h => ⟨_, _, _, decode_of_mod_four h⟩,
    fun h => ⟨_, _, _, decode_of_mod_four h⟩, fun h => ⟨_, _, _, decode_of_mod_four h⟩⟩

/-- Settles O40: the presented word is the host's next move, and the table decodes the same word. -/
theorem fetchWordIsRunNext : Obligations.FetchWordIsRunNext := by
  unfold Obligations.FetchWordIsRunNext
  intro s w hw
  have hmod : w % 2 ^ 80 = w := Nat.mod_eq_of_lt (by omega)
  refine ⟨_, decodeTableWord_of_lt hw, ?_⟩
  rw [Machine.State.withFetchWord, hmod]
  exact Machine.step_idle_host (s := Machine.presentWord s (BitVec.ofNat 74 w)) rfl rfl rfl

end Sys2Proof
end

section
/-! PROOFS. The statements about SIZE: the exact ceiling and its bounds (rules R71, R73), zero operands (rule R72) and the
corner cases (rule R75). -/

namespace Sys2Proof.Machine

/-! ### The ceiling (rule R71) -/

/-- Adding 7 before the division by 8 rounds up. -/
theorem add_seven_div_eight (p : Nat) : (p + 7) / 8 = p / 8 + (if p % 8 ≠ 0 then 1 else 0) := by
  split <;> omega

theorem bytesNeeded_eq_ceiling (w n : Nat) :
    bytesNeeded w n = w * n / 8 + (if w * n % 8 ≠ 0 then 1 else 0) := add_seven_div_eight (w * n)

@[simp] theorem bytesNeeded_zero_left (n : Nat) : bytesNeeded 0 n = 0 := by
  rw [bytesNeeded, Nat.zero_mul]

@[simp] theorem bytesNeeded_zero_right (w : Nat) : bytesNeeded w 0 = 0 := by
  rw [bytesNeeded, Nat.mul_zero]

/-! ### No overflow (rule R73) -/

section
variable (w : WidthOperand) (n : CountOperand)

/-- The product is largest where both operands are. -/
theorem operands_mul_le : w.toNat * n.toNat ≤ (2 ^ 8 - 1) * (2 ^ 32 - 1) :=
  Nat.mul_le_mul (Nat.le_pred_of_lt w.isLt) (Nat.le_pred_of_lt n.isLt)

theorem bytesNeeded_operands_le : bytesNeeded w.toNat n.toNat ≤ 2 ^ 37 := by
  have hmul := operands_mul_le w n
  have hbytes := (bytesNeeded_bounds w.toNat n.toNat).2
  omega

/-- The result field holds the byte count of every command exactly. -/
@[simp] theorem resultOf_bytesNeeded_toNat :
    (resultOf (bytesNeeded w.toNat n.toNat)).toNat = bytesNeeded w.toNat n.toNat := by
  have hle := bytesNeeded_operands_le w n
  rw [resultOf, BitVec.toNat_ofNat]
  exact Nat.mod_eq_of_lt (by omega)

end

/-! ### SIZE by its byte count (rule R70) -/

@[simp] theorem answer_response (s : State) (c : Instr) (st : Status) (result : Nat) :
    (s.answer c st result).response = some { status := st, result := resultOf result } := rfl

theorem exec_size_of_bytesNeeded {w : WidthOperand} {n : CountOperand} {B : Nat}
    (h : bytesNeeded w.toNat n.toNat = B) (len : CountOperand) (s : State) :
    exec (.size w n len) s = .next (s.answer (.size w n len) .ok B) := by
  rw [exec_size, h]

/-- Settles O8: the result field holds the byte count exactly, and the byte count is the ceiling. -/
theorem sizeResultIsExactCeiling : Obligations.SizeResultIsExactCeiling := by
  unfold Obligations.SizeResultIsExactCeiling
  refine ⟨fun p => ?_, fun w n len s => ?_, fun len s => ?_⟩
  · rw [Nat.shiftRight_eq_div_pow]
    exact add_seven_div_eight p
  · have hmul := operands_mul_le w n
    refine ⟨_, _, exec_size w n len s, answer_response _ _ _ _, ?_⟩
    rw [resultOf_bytesNeeded_toNat]
    exact ⟨bytesNeeded_eq_ceiling _ _, hmul, by omega, bytesNeeded_operands_le w n, bytesNeeded_le_count⟩
  · have hlargest : bytesNeeded (255 : WidthOperand).toNat (4294967295 : CountOperand).toNat = 136902082529 := by decide
    exact ⟨_, exec_size_of_bytesNeeded hlargest len s, answer_response _ _ _ _⟩

/-- Settles O9: a zero operand makes the product, hence the byte count, zero. -/
theorem sizeOfZeroIsZero : Obligations.SizeOfZeroIsZero := by
  unfold Obligations.SizeOfZeroIsZero
  rintro w n len s (rfl | rfl)
  · exact exec_size_of_bytesNeeded (by simp) len s
  · exact exec_size_of_bytesNeeded (by simp) len s

/-- Settles O10: each row's third entry is the byte count of its operands. -/
theorem sizeCornerCases : Obligations.SizeCornerCases := by
  unfold Obligations.SizeCornerCases
  intro s len row hrow
  have hcount : bytesNeeded (BitVec.ofNat 8 row.1).toNat (BitVec.ofNat 32 row.2.1).toNat = row.2.2 := by
    revert row
    decide
  exact exec_size_of_bytesNeeded hcount len s

end Sys2Proof.Machine
end

section
/-! PROOFS. The statements about PACK: how an accepted command runs, what it leaves in BUF field by field (rules R51,
R91), what one element step does to whole bytes (rules R84, R86), and empty sequences (rules R92, R111). -/

namespace Sys2Proof.Machine

/-! ### A PACK that passes validation (rules R81, R82) -/

section
variable {w : WidthOperand} {n len : CountOperand} {s : State}

theorem exec_pack_accepted (ha : s.accepts w n len) :
    exec (.pack w n len) s = packBody (accept (.pack w n len) s) := by
  obtain ⟨hw, hl, hbuf, hval⟩ := ha
  rw [exec_pack, validated_body (s := accept (.pack w n len) s) hw hl ⟨hbuf, hval⟩]

/-- Where the pre-scan has nothing to report, the command completes (rules R80, R91). -/
theorem exec_pack_done (ha : s.accepts w n len) (hv : s.valuesAccepted w.toNat n.toNat) :
    ∃ t m, exec (.pack w n len) s = .next t ∧ PackDone (.pack w n len) s t m := by
  have hrun := exec_pack_accepted ha
  obtain ⟨hw, hl, hbuf, hval⟩ := ha
  have hloop : packBody (accept (.pack w n len) s) = elementLoop packElement (accept (.pack w n len) s) :=
    packBody_accepted hval fun hs j hj => not_lt.mpr (hv hs j hj)
  obtain ⟨m, hm, hbits⟩ := elementLoop_pack (s := accept (.pack w n len) s) hw (hl.trans hbuf) hval
  exact ⟨_, m, hrun.trans (hloop.trans hm), rfl, hbits⟩

end

/-! ### BUF after a PACK, by fields and bytes (rules R51, R91) -/

section
variable {c : Instr} {s t : State} {m : Memory Byte}

theorem PackDone.bufBit (h : PackDone c s t m) (p : Nat) : t.bufBit p =
    (s.bufBit p || (decide (p < c.count.toNat * c.bitWidth.toNat) && s.sourceBit c.bitWidth.toNat p)) := by
  obtain ⟨rfl, hbits⟩ := h
  exact hbits p

/-- Bit `b` of field `j`, the most significant first, gets that bit of the value ORed in. -/
theorem PackDone.fieldBit (h : PackDone c s t m) {j b : Nat} (hj : j < c.count.toNat) (hb : b < c.bitWidth.toNat) :
    t.bufBit (j * c.bitWidth.toNat + b) =
      (s.bufBit (j * c.bitWidth.toNat + b) || (s.srcWord j).getLsbD (c.bitWidth.toNat - 1 - b)) := by
  have hin : j * c.bitWidth.toNat + b < c.count.toNat * c.bitWidth.toNat := by
    have hend := element_end_le (w := c.bitWidth.toNat) hj
    rw [Nat.mul_comm c.bitWidth.toNat] at hend
    omega
  rw [h.bufBit, sourceBit_in_field s (i := j) (by omega) (by omega), Nat.add_sub_cancel_left, decide_eq_true hin,
    Bool.true_and]

theorem PackDone.bufBit_beyond (h : PackDone c s t m) {p : Nat} (hp : c.count.toNat * c.bitWidth.toNat ≤ p) :
    t.bufBit p = s.bufBit p := by
  rw [h.bufBit, decide_eq_false (not_lt.mpr hp), Bool.false_and, Bool.or_false]

/-- Numeric bit `b` of a byte as a virtual bit position (rule R34). -/
theorem bufByte_getLsbD (s : State) (k : Nat) {b : Nat} (hb : b < 8) :
    (s.bufByte k).getLsbD b = s.bufBit (k * 8 + (7 - b)) := by
  have hdiv : (k * 8 + (7 - b)) / 8 = k := by omega
  have hmod : 7 - (k * 8 + (7 - b)) % 8 = b := by omega
  rw [State.bufBit, hdiv, hmod]

/-- At width 8 a field is a byte (rule R93). -/
theorem PackDone.bufByte_of_width_eight (h : PackDone c s t m) (hw : c.bitWidth.toNat = 8) {j : Nat}
    (hj : j < c.count.toNat) : t.bufByte j = s.bufByte j ||| masked (s.srcWord j) 8 := by
  refine BitVec.eq_of_getLsbD_eq fun b hb => ?_
  have hfield := h.fieldBit hj (b := 7 - b) (by omega)
  have hbit : 8 - 1 - (7 - b) = b := by omega
  rw [hw, hbit] at hfield
  rw [BitVec.getLsbD_or, masked_getLsbD _ le_rfl, decide_eq_true hb, Bool.true_and, bufByte_getLsbD t j hb,
    bufByte_getLsbD s j hb, hfield]

/-- At width 1 a field is a bit (rule R93). -/
theorem PackDone.bufBit_of_width_one (h : PackDone c s t m) (hw : c.bitWidth.toNat = 1) {j : Nat}
    (hj : j < c.count.toNat) : t.bufBit j = (s.bufBit j || (s.srcWord j).getLsbD 0) := by
  simpa [hw] using h.fieldBit hj (b := 0) (by omega)

end

/-! ### What an element step ORs in, as numbers (rules R84, R86) -/

section
variable {p w : Nat}

/-- A number of `a` bits shifted left by `b` still fits in a byte. -/
theorem mul_two_pow_lt_byte {x a b : Nat} (hx : x < 2 ^ a) (hab : a + b ≤ 8) : x * 2 ^ b < 2 ^ 8 :=
  calc x * 2 ^ b < 2 ^ a * 2 ^ b := Nat.mul_lt_mul_of_pos_right hx (Nat.two_pow_pos b)
    _ = 2 ^ (a + b) := (Nat.pow_add ..).symm
    _ ≤ 2 ^ 8 := Nat.pow_le_pow_right (by omega) hab

/-- The fit shift loses nothing (rule R84). -/
theorem firstOperand_toNat_of_fits (v : Value) (hf : fits p w) :
    (firstOperand v p w).toNat = v.toNat % 2 ^ w * 2 ^ (8 - p % 8 - w) := by
  have hf' : p % 8 + w ≤ 8 := hf
  have hshift : w + fitShift p w ≤ 8 := by unfold fitShift offsetIndex; omega
  rw [firstOperand, if_pos hf, BitVec.toNat_shiftLeft, masked_toNat v (by omega), Nat.shiftLeft_eq]
  exact Nat.mod_eq_of_lt (mul_two_pow_lt_byte (Nat.mod_lt _ (Nat.two_pow_pos w)) hshift)

theorem spillage_eq_mod (hw : w ≤ 8) (hs : ¬ fits p w) : spillage p w = (p % 8 + w) % 8 := by
  have hs' : ¬ p % 8 + w ≤ 8 := hs
  unfold spillage offsetIndex
  omega

/-- The high bits go to the lower byte (rule R86). -/
theorem firstOperand_toNat_of_spills (v : Value) (hw : w ≤ 8) (hs : ¬ fits p w) :
    (firstOperand v p w).toNat = v.toNat % 2 ^ w / 2 ^ spillage p w := by
  rw [firstOperand, if_neg hs, BitVec.toNat_ushiftRight, masked_toNat v hw, Nat.shiftRight_eq_div_pow]

/-- The low `spillage` bits go to the next byte, left-aligned (rule R86). -/
theorem secondOperand_toNat (v : Value) (hw : w ≤ 8) (hs : ¬ fits p w) :
    (secondOperand v p w).toNat = v.toNat % 2 ^ w % 2 ^ spillage p w * 2 ^ (8 - spillage p w) := by
  have hs8 : spillage p w ≤ 8 := by rw [spillage_eq_mod hw hs]; omega
  rw [secondOperand, BitVec.toNat_shiftLeft, BitVec.toNat_and, masked_toNat v hw, BitVec.toNat_ofNat,
    Nat.mod_eq_of_lt (a := mask _) (mask_lt hs8), mask, Nat.and_two_pow_sub_one_eq_mod, Nat.shiftLeft_eq]
  exact Nat.mod_eq_of_lt (mul_two_pow_lt_byte (Nat.mod_lt _ (Nat.two_pow_pos _)) (by omega))

end

/-! ### The bytes after an element step (rules R84, R86) -/

section
variable {s : State}

theorem packFirstByte_first : s.packFirstByte.bufByte (byteIndex s.bitpos.toNat) =
    s.bufByte (byteIndex s.bitpos.toNat) ||| firstOperand (s.srcWord s.i.toNat) s.bitpos.toNat s.w.toNat :=
  (bufByte_write s _ _ _).trans (if_pos rfl)

/-- The bytes after a spill step are those after its first write, the next byte excepted. -/
theorem packedStep_bufByte_of_spills (hf : ¬ fits s.bitpos.toNat s.w.toNat) (k : Nat) :
    State.bufByte { s with buf := packedStep s } k =
      if k = byteIndex s.bitpos.toNat + 1
      then s.bufByte k ||| secondOperand (s.srcWord s.i.toNat) s.bitpos.toNat s.w.toNat
      else s.packFirstByte.bufByte k := by
  rw [packedStep_of_spills hf, packFirstByte_other (Nat.succ_ne_self _)]
  refine (bufByte_write s.packFirstByte _ k _).trans ?_
  by_cases hk : k = byteIndex s.bitpos.toNat + 1
  · rw [if_pos hk, if_pos hk, hk]
  · rw [if_neg hk, if_neg hk]

/-- An element step as one record update (rule R87). -/
theorem packElement_eq (h : AtElement s) :
    packElement s = .next { s with
      buf := packedStep s, i := s.i + 1, bitpos := BitVec.ofNat 35 (s.bitpos.toNat + s.w.toNat) } := by
  have hcursor : BitVec.ofNat 35 (s.bitpos.toNat + s.w.toNat) = s.bitpos + s.w.setWidth 35 := by
    simp [BitVec.ofNat_add]
  rw [packElement_next h, hcursor]
  rfl

end

/-! ### Empty sequences (rules R92, R111) -/

section
variable {s : State} (hn : s.n = 0)
include hn

/-- An element loop over no element accesses nothing: it only sets the cursor. -/
theorem elementLoop_empty (step : State → Result State) :
    elementLoop step s = .next (deliver .ok s.needed (startLoop s)) := by
  unfold elementLoop
  rw [hn]
  rfl

theorem packBody_empty : packBody s = .next (deliver .ok s.needed (startLoop s)) := by
  have hn0 : s.n.toNat = 0 := by rw [hn]; rfl
  rw [packBody_accepted (by omega) (fun _ j hj => by omega), elementLoop_empty hn]

end

section
variable {c : Instr} {s : State} {body : State → Result State} (hn : c.count = 0)
include hn

theorem neededBy_of_count_zero : neededBy c = 0 := by simp [neededBy, hn]

theorem validated_empty_invalidBitWidth (hw : ¬ widthValid c.bitWidth.toNat) :
    validated (accept c s) body = .next (s.answer c .invalidBitWidth 0) := by
  have hneeded : (accept c s).needed = 0 := neededBy_of_count_zero hn
  rw [validated_invalidBitWidth (s := accept c s) hw, hneeded, deliver_accept]

/-- No element needs no byte, so the length is never too short, and only `BUF_CAP` bounds it (rule R181). -/
theorem validated_empty_done (hw : widthValid c.bitWidth.toNat) (hlen : c.bufLen.toNat ≤ s.params.bufCap)
    (hbody : body (accept c s) = .next (deliver .ok (accept c s).needed (startLoop (accept c s)))) :
    validated (accept c s) body = .next { s.answer c .ok 0 with i := 0, bitpos := 0 } := by
  have hneeded : (accept c s).needed = 0 := neededBy_of_count_zero hn
  have hcount : (accept c s).n.toNat = 0 := by rw [accept_n, hn]; rfl
  rw [validated_body (s := accept c s) hw (by omega) ⟨hlen, by omega⟩, hbody, hneeded]
  rfl

end

/-! ### The statements about PACK -/

/-- Settles O14: after the operand checks the pre-scan stops at the lowest index out of range. -/
theorem strictModeReportsLowestIndex : Obligations.StrictModeReportsLowestIndex := by
  unfold Obligations.StrictModeReportsLowestIndex
  intro w n len s j ha hs hj hout hfit
  rw [exec_pack_accepted ha]
  obtain ⟨-, -, -, hval⟩ := ha
  exact packBody_rejected (s := accept (.pack w n len) s) hval hs hj hout fun l hl => not_lt.mpr (hfit l hl)

/-- Settles O22, from the bits of the packed form and the frame of every command. -/
theorem packOrsPackedForm : Obligations.PackOrsPackedForm := by
  unfold Obligations.PackOrsPackedForm
  intro w n len s ha hv
  obtain ⟨t, m, hrun, hdone⟩ := exec_pack_done ha hv
  have hframe := exec_frame hrun
  obtain rfl := hdone.state
  exact ⟨m, hrun, fun j hj b hb => hdone.fieldBit hj hb, fun p hp => hdone.bufBit_beyond hp, hframe.bufBeyond⟩

/-- Settles O25: in the fit case the first byte write is the whole step. -/
theorem packFitStep : Obligations.PackFitStep := by
  unfold Obligations.PackFitStep
  intro s hw hb hv hi hc hf
  refine ⟨packedStep s, _, packElement_eq ⟨hw, hb, hv, hi, hc⟩, firstOperand_toNat_of_fits _ hf, ?_⟩
  rw [packedStep_of_fits hf]
  exact ⟨packFirstByte_first, fun k hk => packFirstByte_other hk⟩

/-- Settles O26: the two byte writes of the spill step, and the two parts of the value as numbers. -/
theorem packSpillStep : Obligations.PackSpillStep := by
  unfold Obligations.PackSpillStep
  intro s hw hb hv hi hc hs
  have hf : ¬ fits s.bitpos.toNat s.w.toNat := not_le.mpr hs
  have hbyte := packedStep_bufByte_of_spills hf
  refine ⟨packedStep s, firstOperand (s.srcWord s.i.toNat) s.bitpos.toNat s.w.toNat,
    secondOperand (s.srcWord s.i.toNat) s.bitpos.toNat s.w.toNat, packElement_eq ⟨hw, hb, hv, hi, hc⟩, ?_, ?_, ?_, ?_,
    fun k hk hk1 => ?_⟩
  · rw [← spillage_eq_mod hw.2 hf]
    exact firstOperand_toNat_of_spills _ hw.2 hf
  · rw [← spillage_eq_mod hw.2 hf]
    exact secondOperand_toNat _ hw.2 hf
  · exact (hbyte _).trans ((if_neg (Nat.succ_ne_self _).symm).trans packFirstByte_first)
  · exact (hbyte _).trans (if_pos rfl)
  · exact (hbyte k).trans ((if_neg hk1).trans (packFirstByte_other hk))

/-- Settles O27: no element needs no byte, so validation stops at the width alone. -/
theorem emptySequenceTouchesNothing : Obligations.EmptySequenceTouchesNothing := by
  unfold Obligations.EmptySequenceTouchesNothing
  intro w len s
  refine ⟨fun hw => ⟨?_, ?_⟩, fun hw hlen => ⟨?_, ?_⟩⟩
  · rw [exec_pack]; exact validated_empty_invalidBitWidth rfl hw
  · rw [exec_unpack]; exact validated_empty_invalidBitWidth rfl hw
  · rw [exec_pack]; exact validated_empty_done rfl hw hlen (packBody_empty rfl)
  · rw [exec_unpack]; exact validated_empty_done rfl hw hlen (elementLoop_empty rfl _)

/-- Settles O28: at width 8 fields are bytes, at width 1 they are bits. -/
theorem packBoundaryWidths : Obligations.PackBoundaryWidths := by
  unfold Obligations.PackBoundaryWidths
  refine ⟨fun n len s ha hv => ?_, fun n len s ha hv => ?_⟩
  · obtain ⟨t, m, hrun, hdone⟩ := exec_pack_done ha hv
    exact ⟨t, hrun, fun j hj => hdone.bufByte_of_width_eight rfl hj⟩
  · obtain ⟨t, m, hrun, hdone⟩ := exec_pack_done ha hv
    exact ⟨t, hrun, fun j hj => hdone.bufBit_of_width_one rfl hj⟩

end Sys2Proof.Machine
end

section
/-! PROOFS. The statements about UNPACK: how an accepted command runs, the words of DST it leaves (rules R106 to R109),
the boundary widths (rule R112), and what one element step extracts, as numbers (rules R103, R104). -/

namespace Sys2Proof.Machine

/-! ### The words of DST after an UNPACK (rules R106 to R109) -/

/-- An accepted UNPACK completes: past validation nothing can stop it (rules R101, R108). -/
theorem exec_unpack_done {w : WidthOperand} {n len : CountOperand} {s : State} (ha : s.accepts w n len) :
    ∃ t m, exec (.unpack w n len) s = .next t ∧ UnpackDone (.unpack w n len) s t m := by
  obtain ⟨hw, hl, hbuf, hval⟩ := ha
  have hvalid := validated_body (s := accept (.unpack w n len) s) (body := elementLoop unpackElement) hw hl ⟨hbuf, hval⟩
  obtain ⟨m, hloop, hfields, hothers⟩ := elementLoop_unpack (s := accept (.unpack w n len) s) hw (hl.trans hbuf) hval
  exact ⟨_, m, (exec_unpack w n len s).trans (hvalid.trans hloop), rfl, hfields, hothers⟩

section
variable {c : Instr} {s t : State} {m : Memory Value}

theorem UnpackDone.dstWord_getLsbD (h : UnpackDone c s t m) {j : Nat} (hj : j < c.count.toNat) (b : Nat) :
    (t.dstWord j).getLsbD b =
      (decide (b < c.bitWidth.toNat) && s.bufBit (j * c.bitWidth.toNat + (c.bitWidth.toNat - 1 - b))) := by
  obtain ⟨rfl, hfields, -⟩ := h
  exact hfields j hj b

theorem UnpackDone.dstWord_beyond (h : UnpackDone c s t m) {j : Nat} (hj : c.count.toNat ≤ j) :
    t.dstWord j = s.dstWord j := by
  obtain ⟨rfl, -, hothers⟩ := h
  exact hothers j hj

theorem UnpackDone.response (h : UnpackDone c s t m) : t.response = some ⟨.ok, resultOf (neededBy c)⟩ := by
  obtain ⟨rfl, -, -⟩ := h
  rfl

/-- The field is zero-extended (rule R106). -/
theorem UnpackDone.dstWord_lt (h : UnpackDone c s t m) {j : Nat} (hj : j < c.count.toNat) :
    (t.dstWord j).toNat < 2 ^ c.bitWidth.toNat := by
  refine Nat.lt_pow_two_of_testBit _ fun b hb => ?_
  rw [BitVec.testBit_toNat, h.dstWord_getLsbD hj, decide_eq_false (not_lt.mpr hb), Bool.false_and]

/-- Bit `b` of the field, the most significant first (rule R108). -/
theorem UnpackDone.fieldBit (h : UnpackDone c s t m) {j b : Nat} (hj : j < c.count.toNat) (hb : b < c.bitWidth.toNat) :
    (t.dstWord j).getLsbD (c.bitWidth.toNat - 1 - b) = s.bufBit (j * c.bitWidth.toNat + b) := by
  have hpos : c.bitWidth.toNat - 1 - (c.bitWidth.toNat - 1 - b) = b := by omega
  rw [h.dstWord_getLsbD hj, hpos, decide_eq_true (by omega), Bool.true_and]

/-- Two machines with the same DST and the same field bits end with the same DST (rule R109). -/
theorem UnpackDone.dstWord_congr {s' t' : State} {m' : Memory Value} (h : UnpackDone c s t m)
    (h' : UnpackDone c s' t' m') (hdst : ∀ k, s'.dstWord k = s.dstWord k)
    (hbits : ∀ p < c.count.toNat * c.bitWidth.toNat, s'.bufBit p = s.bufBit p) (k : Nat) :
    t'.dstWord k = t.dstWord k := by
  by_cases hk : k < c.count.toNat
  · refine BitVec.eq_of_getLsbD_eq fun b _ => ?_
    rw [h'.dstWord_getLsbD hk, h.dstWord_getLsbD hk]
    by_cases hb : b < c.bitWidth.toNat
    · have hend := element_end_le (w := c.bitWidth.toNat) hk
      rw [Nat.mul_comm c.bitWidth.toNat] at hend
      rw [hbits _ (by omega)]
    · rw [decide_eq_false hb, Bool.false_and, Bool.false_and]
  · rw [h'.dstWord_beyond (not_lt.mp hk), h.dstWord_beyond (not_lt.mp hk), hdst]

/-- At width 1 a word of DST is a bit of BUF (rule R112). -/
theorem UnpackDone.dstWord_of_width_one (h : UnpackDone c s t m) (hw : c.bitWidth.toNat = 1) {j : Nat}
    (hj : j < c.count.toNat) : (t.dstWord j).toNat = (s.bufByte (j / 8)).toNat / 2 ^ (7 - j % 8) % 2 := by
  have hlt := h.dstWord_lt hj
  have hbit : (t.dstWord j).getLsbD 0 = s.bufBit j := by
    rw [h.dstWord_getLsbD hj, hw, Nat.mul_one]
    rfl
  rw [hw] at hlt
  calc (t.dstWord j).toNat = (t.dstWord j).toNat / 2 ^ 0 % 2 := by omega
    _ = ((t.dstWord j).getLsbD 0).toNat := (Nat.toNat_testBit _ _).symm
    _ = (s.bufBit j).toNat := congrArg Bool.toNat hbit
    _ = _ := Nat.toNat_testBit _ _

/-- At width 8 a word of DST is a byte of BUF (rule R112). -/
theorem UnpackDone.dstWord_of_width_eight (h : UnpackDone c s t m) (hw : c.bitWidth.toNat = 8) {j : Nat}
    (hj : j < c.count.toNat) : t.dstWord j = extendValue (s.bufByte j) := by
  refine BitVec.eq_of_getLsbD_eq fun b _ => ?_
  rw [h.dstWord_getLsbD hj, hw, extendValue_getLsbD]
  by_cases hb : b < 8
  · rw [decide_eq_true hb, Bool.true_and, bufByte_getLsbD s j hb]
  · rw [decide_eq_false hb, Bool.false_and, BitVec.getLsbD_of_ge _ _ (not_lt.mp hb)]

end

/-! ### What an element step extracts, as numbers (rules R103, R104) -/

/-- A mask keeps the residue modulo `2^w` (rule R8). -/
theorem and_mask_toNat {m w : Nat} (x : BitVec m) (hw : w ≤ m) :
    (x &&& BitVec.ofNat m (mask w)).toNat = x.toNat % 2 ^ w := by
  have hle : 2 ^ w ≤ 2 ^ m := Nat.pow_le_pow_right (by omega) hw
  have hpos := Nat.two_pow_pos w
  have hmask : mask w < 2 ^ m := by unfold mask; omega
  rw [BitVec.toNat_and, BitVec.toNat_ofNat, Nat.mod_eq_of_lt hmask, mask, Nat.and_two_pow_sub_one_eq_mod]

theorem extendValue_toNat (b : Byte) : (extendValue b).toNat = b.toNat :=
  BitVec.toNat_setWidth_of_le (by decide)

section
variable {p w : Nat}

theorem fitValue_toNat (b : Byte) (hw : w ≤ 8) : (fitValue b p w).toNat = b.toNat / 2 ^ fitShift p w % 2 ^ w := by
  rw [fitValue, and_mask_toNat _ hw, BitVec.toNat_ushiftRight, Nat.shiftRight_eq_div_pow]

/-- At 16 bits the shift loses nothing (rule R110). -/
theorem highPart_toNat (b0 : Byte) (hw : w ≤ 8) (hs : spillage p w ≤ 8) :
    (highPart b0 p w).toNat = b0.toNat * 2 ^ spillage p w % 2 ^ w := by
  have hshift : b0.toNat * 2 ^ spillage p w < 2 ^ 16 :=
    calc b0.toNat * 2 ^ spillage p w < 2 ^ 8 * 2 ^ spillage p w :=
          Nat.mul_lt_mul_of_pos_right b0.isLt (Nat.two_pow_pos _)
      _ = 2 ^ (8 + spillage p w) := (Nat.pow_add ..).symm
      _ ≤ 2 ^ 16 := Nat.pow_le_pow_right (by omega) (by omega)
  have hmod : b0.toNat * 2 ^ spillage p w % 2 ^ w < 2 ^ 8 :=
    (Nat.mod_lt _ (Nat.two_pow_pos w)).trans_le (Nat.pow_le_pow_right (by omega) hw)
  rw [highPart, BitVec.toNat_setWidth, and_mask_toNat _ (by omega), BitVec.toNat_shiftLeft,
    BitVec.toNat_setWidth_of_le (by decide), Nat.shiftLeft_eq, Nat.mod_eq_of_lt hshift, Nat.mod_eq_of_lt hmod]

theorem lowPart_toNat (b1 : Byte) (hw : w ≤ 8) :
    (lowPart b1 p w).toNat = b1.toNat / 2 ^ (8 - spillage p w) % 2 ^ w := by
  rw [lowPart, and_mask_toNat _ hw, BitVec.toNat_ushiftRight, Nat.shiftRight_eq_div_pow]

/-- The two parts of a field that spills, with the document's spillage `(o + w) mod 8` (rule R104). -/
theorem spillValue_toNat (b0 b1 : Byte) (hw : w ≤ 8) (hs : ¬ fits p w) :
    (spillValue b0 b1 p w).toNat =
      (b0.toNat * 2 ^ ((p % 8 + w) % 8) % 2 ^ w) ||| (b1.toNat / 2 ^ (8 - (p % 8 + w) % 8) % 2 ^ w) := by
  have hspill := spillage_eq_mod hw hs
  rw [spillValue, BitVec.toNat_or, highPart_toNat b0 hw (by omega), lowPart_toNat b1 hw, hspill]

end

/-! ### UNPACK's element step (rules R103 to R106) -/

section
variable {s : State}

/-- The cursor's advance as one record update, its position as a number (rule R105). -/
theorem advance_eq (s : State) : advance s =
    { s with i := s.i + 1, bitpos := BitVec.ofNat 35 (s.bitpos.toNat + s.w.toNat) } := by
  simp [advance, BitVec.ofNat_add]

theorem unpackElement_eq (h : AtElement s) :
    unpackElement s = .next { s with
      dst := unpackedStep s, i := s.i + 1, bitpos := BitVec.ofNat 35 (s.bitpos.toNat + s.w.toNat) } := by
  rw [unpackElement_next h, advance_eq]

theorem unpackedStep_dstWord (k : Nat) : State.dstWord { s with dst := unpackedStep s } k =
    if k = s.i.toNat then extendValue (unpackedField s) else s.dstWord k :=
  dstWord_write s _ k _

theorem unpackedField_of_fits (hf : fits s.bitpos.toNat s.w.toNat) :
    unpackedField s = fitValue (s.bufByte (byteIndex s.bitpos.toNat)) s.bitpos.toNat s.w.toNat := if_pos hf

theorem unpackedField_of_spills (hf : ¬ fits s.bitpos.toNat s.w.toNat) :
    unpackedField s = spillValue (s.bufByte (byteIndex s.bitpos.toNat)) (s.bufByte (byteIndex s.bitpos.toNat + 1))
      s.bitpos.toNat s.w.toNat := if_neg hf

end

/-! ### The statements about UNPACK -/

/-- Settles O31, from the bits of the extracted words. -/
theorem unpackReadsFields : Obligations.UnpackReadsFields := by
  unfold Obligations.UnpackReadsFields
  intro w n len s ha
  obtain ⟨t, m, hrun, hdone⟩ := exec_unpack_done ha
  obtain rfl := hdone.state
  exact ⟨m, hrun, fun j hj => ⟨hdone.dstWord_lt hj, fun b hb => hdone.fieldBit hj hb⟩,
    fun j hj => hdone.dstWord_beyond hj⟩

/-- Settles O32: the word written at the cursor is the extracted field, and the field is the document's expression. -/
theorem unpackElementSteps : Obligations.UnpackElementSteps := by
  unfold Obligations.UnpackElementSteps
  intro s hw hb hv hi hc
  have hword := (unpackedStep_dstWord (s := s) s.i.toNat).trans (if_pos rfl)
  have hvalue := (congrArg BitVec.toNat hword).trans (extendValue_toNat _)
  refine ⟨unpackedStep s, unpackElement_eq ⟨hw, hb, hv, hi, hc⟩, fun hf => hvalue.trans ?_, fun hs => hvalue.trans ?_,
    fun k hk => (unpackedStep_dstWord k).trans (if_neg hk)⟩
  · have hshift : fitShift s.bitpos.toNat s.w.toNat = 7 - (s.bitpos.toNat % 8 + s.w.toNat - 1) := by
      have hpos := hw.1
      unfold fitShift offsetIndex
      omega
    rw [unpackedField_of_fits hf, fitValue_toNat _ hw.2, hshift]
    rfl
  · have hf : ¬ fits s.bitpos.toNat s.w.toNat := not_le.mpr hs
    rw [unpackedField_of_spills hf, spillValue_toNat _ _ hw.2 hf]
    rfl

/-- Settles O33: both commands complete, and their words are made of the same field bits. -/
theorem unpackIgnoresOtherBits : Obligations.UnpackIgnoresOtherBits := by
  unfold Obligations.UnpackIgnoresOtherBits
  intro w n len s buf' ha hbits
  obtain ⟨t, m, hrun, hdone⟩ := exec_unpack_done ha
  obtain ⟨u, m', hrun', hdone'⟩ := exec_unpack_done (s := { s with buf := buf' }) ha
  exact ⟨t, u, hrun, hrun', hdone.response, hdone'.response.trans hdone.response.symm,
    fun k => (hdone.dstWord_congr hdone' (fun _ => rfl) hbits k).symm⟩

/-- Settles O34: at width 1 fields are bits, at width 8 they are bytes. -/
theorem unpackBoundaryWidths : Obligations.UnpackBoundaryWidths := by
  unfold Obligations.UnpackBoundaryWidths
  refine ⟨fun n len s ha => ?_, fun n len s ha => ?_⟩
  · obtain ⟨t, m, hrun, hdone⟩ := exec_unpack_done ha
    exact ⟨t, hrun, fun j hj => hdone.dstWord_of_width_one rfl hj⟩
  · obtain ⟨t, m, hrun, hdone⟩ := exec_unpack_done ha
    exact ⟨t, hrun, fun j hj => hdone.dstWord_of_width_eight rfl hj⟩

end Sys2Proof.Machine
end

section
/-! PROOFS. The laws of PACK and UNPACK together: what PACK's result depends on (rules R122, R128), the round trips in
both directions (rules R120, R129, R130), and exact memories (rule R126). -/

namespace Sys2Proof.Machine

/-! ### Values modulo `2^w`, and the field a stream bit lies in (rules R51, R122) -/

/-- Congruent modulo `2^w` means equal in the low `w` bits. -/
theorem toNat_mod_two_pow_eq_iff {m w : Nat} {x y : BitVec m} :
    x.toNat % 2 ^ w = y.toNat % 2 ^ w ↔ ∀ b < w, x.getLsbD b = y.getLsbD b := by
  have hbit (z : BitVec m) (b : Nat) : (z.toNat % 2 ^ w).testBit b = (decide (b < w) && z.getLsbD b) := by
    rw [Nat.testBit_mod_two_pow, BitVec.testBit_toNat]
  refine ⟨fun h b hb => ?_, fun h => Nat.eq_of_testBit_eq fun b => ?_⟩
  · simpa [hbit, hb] using congrArg (Nat.testBit · b) h
  · rw [hbit, hbit]
    by_cases hb : b < w
    · rw [h b hb]
    · rw [decide_eq_false hb, Bool.false_and, Bool.false_and]

/-- A value in range is its own residue (rule R9). -/
theorem valuesFit_mod {s : State} {w n j : Nat} (h : s.valuesFit w n) (hj : j < n) :
    (s.srcWord j).toNat % 2 ^ w = (s.srcWord j).toNat :=
  Nat.mod_eq_of_lt ((h j hj).trans_lt (Nat.sub_one_lt (Nat.two_pow_pos w).ne'))

/-- Stream bit `p` lies in field `p / w`, at place `p mod w` of it. -/
theorem field_of_lt {w n p : Nat} (h : p < n * w) : p / w < n ∧ p % w < w :=
  ⟨Nat.div_lt_of_lt_mul (Nat.mul_comm n w ▸ h), Nat.mod_lt _ (Nat.pos_of_lt_mul_left h)⟩

/-! ### What BUF holds after a PACK (rules R122, R128) -/

section
variable {c : Instr} {s t s' t' : State} {m m' : Memory Byte}

theorem PackDone.response (h : PackDone c s t m) : t.response = some ⟨.ok, resultOf (neededBy c)⟩ := by
  obtain ⟨rfl, -⟩ := h
  rfl

theorem PackDone.srcWord (h : PackDone c s t m) (j : Nat) : t.srcWord j = s.srcWord j := by
  obtain ⟨rfl, -⟩ := h
  rfl

/-- PACK reads the low `w` bits of each value and no others (rule R122). -/
theorem PackDone.bufByte_congr (h : PackDone c s t m) (h' : PackDone c s' t' m')
    (hbuf : ∀ p, s'.bufBit p = s.bufBit p) (hsrc : ∀ j < c.count.toNat,
      (s'.srcWord j).toNat % 2 ^ c.bitWidth.toNat = (s.srcWord j).toNat % 2 ^ c.bitWidth.toNat) (k : Nat) :
    t'.bufByte k = t.bufByte k := by
  refine bufByte_eq_of_bufBit fun p _ => ?_
  by_cases hp : p < c.count.toNat * c.bitWidth.toNat
  · obtain ⟨hfield, hplace⟩ := field_of_lt hp
    have hbit : s'.sourceBit c.bitWidth.toNat p = s.sourceBit c.bitWidth.toNat p :=
      toNat_mod_two_pow_eq_iff.mp (hsrc _ hfield) _ (by omega)
    rw [h'.bufBit, h.bufBit, hbuf, hbit]
  · rw [h'.bufBit_beyond (not_lt.mp hp), h.bufBit_beyond (not_lt.mp hp), hbuf]

/-- The packed form ORed into a buffer is the buffer OR the packed form ORed into zeros (rule R128). -/
theorem PackDone.bufByte_or (h : PackDone c s t m) (h' : PackDone c s' t' m') (hzero : ∀ p, s'.bufBit p = false)
    (hsrc : ∀ j, s'.srcWord j = s.srcWord j) (k : Nat) : t.bufByte k = s.bufByte k ||| t'.bufByte k := by
  refine BitVec.eq_of_getLsbD_eq fun b hb => ?_
  simp only [BitVec.getLsbD_or, bufByte_getLsbD _ _ hb, h.bufBit, h'.bufBit, hzero, Bool.false_or,
    State.sourceBit, hsrc]

/-- A second PACK of the same values changes no byte (rule R128). -/
theorem PackDone.bufByte_again (h : PackDone c s t m) (h' : PackDone c t t' m') (k : Nat) :
    t'.bufByte k = t.bufByte k := by
  refine bufByte_eq_of_bufBit fun p _ => ?_
  rw [h'.bufBit, h.bufBit, State.sourceBit, State.sourceBit, h.srcWord, Bool.or_assoc, Bool.or_self]

/-- On zeroed field bits the field of element `j` is the value's low `w` bits (rule R91). -/
theorem PackDone.bufBit_of_zeroed (h : PackDone c s t m)
    (hzero : ∀ p < c.count.toNat * c.bitWidth.toNat, s.bufBit p = false) {j b : Nat} (hj : j < c.count.toNat)
    (hb : b < c.bitWidth.toNat) :
    t.bufBit (j * c.bitWidth.toNat + (c.bitWidth.toNat - 1 - b)) = (s.srcWord j).getLsbD b := by
  have hend := element_end_le (w := c.bitWidth.toNat) hj
  rw [Nat.mul_comm c.bitWidth.toNat] at hend
  have hbit : c.bitWidth.toNat - 1 - (c.bitWidth.toNat - 1 - b) = b := by omega
  rw [h.fieldBit hj (by omega), hzero _ (by omega), Bool.false_or, hbit]

end

/-! ### A value that strict mode rejects (rule R122) -/

section
variable {w : WidthOperand} {n len : CountOperand} {s : State}

theorem exec_pack_rejected (ha : s.accepts w n len) (hs : s.params.strict = true) {j : Nat} (hj : j < n.toNat)
    (hout : 2 ^ w.toNat - 1 < (s.srcWord j).toNat) :
    ∃ i, exec (.pack w n len) s = .next (s.answer (.pack w n len) .valueOutOfRange i) := by
  have hrun := exec_pack_accepted ha
  obtain ⟨-, -, -, hval⟩ := ha
  obtain ⟨-, hfit⟩ | ⟨i, -, -, -, -, hreject⟩ := packBody_cases (s := accept (.pack w n len) s) hval
  · exact absurd hout (hfit hs j hj)
  · exact ⟨i, hrun.trans hreject⟩

end

/-! ### PACK then UNPACK, UNPACK then PACK (rules R120, R129, R130) -/

/-- Unpacking a buffer that was zero on the fields before a PACK gives the residues (rule R120). -/
theorem UnpackDone.dstWord_of_packed {c d : Instr} {s t u : State} {m : Memory Byte} {m' : Memory Value}
    (hp : PackDone c s t m) (hu : UnpackDone d t u m') (hwidth : d.bitWidth = c.bitWidth) (hcount : d.count = c.count)
    (hzero : ∀ p < c.count.toNat * c.bitWidth.toNat, s.bufBit p = false) {j : Nat} (hj : j < c.count.toNat) :
    (u.dstWord j).toNat = (s.srcWord j).toNat % 2 ^ c.bitWidth.toNat := by
  have hjd : j < d.count.toNat := hcount ▸ hj
  have hlt := hu.dstWord_lt hjd
  rw [hwidth] at hlt
  rw [← Nat.mod_eq_of_lt hlt]
  refine toNat_mod_two_pow_eq_iff.mpr fun b hb => ?_
  rw [hu.dstWord_getLsbD hjd, hwidth, decide_eq_true hb, Bool.true_and, hp.bufBit_of_zeroed hzero hj hb]

/-- Packing the unpacked values into zeroed field bits gives the unpacked bits back (rule R130). -/
theorem PackDone.bufBit_of_unpacked {c d : Instr} {s t v u : State} {m : Memory Value} {m' : Memory Byte}
    (hu : UnpackDone d s t m) (hp : PackDone c v u m') (hwidth : d.bitWidth = c.bitWidth) (hcount : d.count = c.count)
    (hsrc : ∀ j < c.count.toNat, v.srcWord j = t.dstWord j) {p : Nat}
    (hin : p < c.count.toNat * c.bitWidth.toNat) (hzero : v.bufBit p = false) : u.bufBit p = s.bufBit p := by
  obtain ⟨hfield, hplace⟩ := field_of_lt hin
  have hbit := hu.fieldBit (j := p / c.bitWidth.toNat) (b := p % c.bitWidth.toNat)
    (hcount ▸ hfield) (hwidth ▸ hplace)
  rw [hwidth, Nat.div_add_mod'] at hbit
  rw [hp.bufBit, hzero, decide_eq_true hin, Bool.false_or, Bool.true_and, State.sourceBit, hsrc _ hfield, hbit]

/-! ### The statements about PACK and UNPACK together -/

/-- Settles O29: PACK reads the residues only, and the pre-scan of strict mode reads whole values. -/
theorem packIgnoresHighBits : Obligations.PackIgnoresHighBits := by
  unfold Obligations.PackIgnoresHighBits
  intro w n len s ha
  refine ⟨fun hstrict src' hsrc => ?_, fun hstrict ⟨j, hj, hout⟩ => ?_⟩
  · have hlenient : ¬ s.params.strict = true := by simp [hstrict]
    obtain ⟨t, m, hrun, hdone⟩ := exec_pack_done ha fun h => absurd h hlenient
    obtain ⟨u, m', hrun', hdone'⟩ := exec_pack_done (s := { s with src := src' }) ha fun h => absurd h hlenient
    refine ⟨t, u, hrun, hrun', hdone.response.trans hdone'.response.symm, fun k => ?_⟩
    exact (hdone.bufByte_congr hdone' (fun _ => rfl)
      (fun j hj => (congrArg (· % 2 ^ w.toNat) (hsrc j hj)).trans (Nat.mod_mod _ _)) k).symm
  · obtain ⟨i, hrun⟩ := exec_pack_rejected ha hstrict hj hout
    exact ⟨_, _, hrun, rfl⟩

/-- Settles O30: each PACK ORs in the same packed form. -/
theorem packCommutesWithOr : Obligations.PackCommutesWithOr := by
  unfold Obligations.PackCommutesWithOr
  intro w n len s zeroed ha hv hzero
  obtain ⟨t, m, hrun, hdone⟩ := exec_pack_done ha hv
  obtain ⟨z, m', hrun', hdone'⟩ := exec_pack_done (s := { s with buf := zeroed }) ha hv
  have hparams := (exec_frame hrun).params
  have hat : t.accepts w n len := by rwa [State.accepts, hparams]
  have hvt : t.valuesAccepted w.toNat n.toNat := by
    simpa only [State.valuesAccepted, State.valuesFit, hparams, hdone.srcWord] using hv
  obtain ⟨u, m'', hrun'', hdone''⟩ := exec_pack_done hat hvt
  have hclear : ∀ p, State.bufBit { s with buf := zeroed } p = false := fun p => by
    simp [State.bufBit, hzero]
  exact ⟨t, z, u, hrun, hrun', hrun'', fun k =>
    ⟨hdone.bufByte_or hdone' hclear (fun _ => rfl) k, hdone.bufByte_again hdone'' k⟩⟩

/-- Settles O35: UNPACK reads the fields that PACK wrote into zeros. -/
theorem packThenUnpackRestoresValues : Obligations.PackThenUnpackRestoresValues := by
  unfold Obligations.PackThenUnpackRestoresValues
  intro w n len len' s ha ha' hv hzero
  obtain ⟨t, m, hrun, hdone⟩ := exec_pack_done ha hv
  have hparams := (exec_frame hrun).params
  have hat : t.accepts w n len' := by rwa [State.accepts, hparams]
  obtain ⟨u, m', hrun', hdone'⟩ := exec_unpack_done hat
  have hword : ∀ j < n.toNat, (u.dstWord j).toNat = (s.srcWord j).toNat % 2 ^ w.toNat := fun j hj =>
    UnpackDone.dstWord_of_packed hdone hdone' rfl rfl hzero hj
  exact ⟨t, u, hrun, hrun', hdone.response, hdone'.response.trans hdone.response.symm, hword,
    fun hfit j hj => BitVec.eq_of_toNat_eq ((hword j hj).trans (valuesFit_mod hfit hj))⟩

/-- Settles O36: unpacked values fit, so PACK accepts them in either mode and writes the fields UNPACK read. -/
theorem unpackThenPackRestoresBytes : Obligations.UnpackThenPackRestoresBytes := by
  unfold Obligations.UnpackThenPackRestoresBytes
  intro w n len s v ha hav
  obtain ⟨t, m, hrun, hdone⟩ := exec_unpack_done ha
  refine ⟨t, hrun, fun hsrc hzero => ?_⟩
  have hfit : v.valuesFit w.toNat n.toNat := fun j hj => hsrc j hj ▸ Nat.le_sub_one_of_lt (hdone.dstWord_lt hj)
  obtain ⟨u, m', hrun', hdone'⟩ := exec_pack_done hav fun _ => hfit
  refine ⟨u, hrun', fun p hp => ?_, fun p hbeyond hp => (hdone'.bufBit_beyond hbeyond).trans (hzero p hp)⟩
  have hbytes := (bytesNeeded_bounds w.toNat n.toNat).1
  rw [Nat.mul_comm w.toNat] at hbytes
  exact PackDone.bufBit_of_unpacked hdone hdone' rfl rfl hsrc hp (hzero p (hp.trans_le hbytes))

/-- Settles O37: on zeroed field bits the low `w` bits of a value can be read off BUF, and values in range have no
others. -/
theorem packIsInjective : Obligations.PackIsInjective := by
  unfold Obligations.PackIsInjective
  intro w n len s v t u ha hav hs hv hzero hrun hrun' hbytes j hj
  obtain ⟨t', m, ht, hdone⟩ := exec_pack_done ha fun _ => hs
  obtain ⟨u', m', hu, hdone'⟩ := exec_pack_done hav fun _ => hv
  cases ht.symm.trans hrun
  cases hu.symm.trans hrun'
  refine BitVec.eq_of_toNat_eq ?_
  rw [← valuesFit_mod hs hj, ← valuesFit_mod hv hj]
  refine toNat_mod_two_pow_eq_iff.mpr fun b hb => ?_
  have hend := element_end_le (w := w.toNat) hj
  have hsbit := hdone.bufBit_of_zeroed (fun p hp => (hzero p hp).1) hj hb
  have hvbit := hdone'.bufBit_of_zeroed (fun p hp => (hzero p hp).2) hj hb
  have hbyte := hbytes _ (div_lt_bytesNeeded (p := j * w.toNat + (w.toNat - 1 - b)) (by omega))
  exact hsbit.symm.trans ((congrArg (BitVec.getLsbD · _) hbyte).trans hvbit)

/-- Settles O38: such a command is accepted, so it is answered, and the frame of every command keeps the rest. -/
theorem exactMemoriesSuffice : Obligations.ExactMemoriesSuffice := by
  unfold Obligations.ExactMemoriesSuffice
  intro w n len s hw hlen hbuf hval
  have ha : s.accepts w n len := ⟨hw, hlen.ge, hlen.trans_le hbuf, hval⟩
  rw [hlen]
  constructor
  · obtain ⟨t, r, hrun, hidle, hresp⟩ | ⟨-, hc⟩ := exec_answers_or_refused (.pack w n len) s
    · have hframe := exec_frame hrun
      refine ⟨t, r, hrun, hidle, hresp, fun hv => ?_, hframe.bufBeyond, hframe.dst (show 1#2 ≠ 2#2 by decide)⟩
      obtain ⟨t', m, ht, hdone⟩ := exec_pack_done ha hv
      cases ht.symm.trans hrun
      exact Option.some.inj (hresp.symm.trans hdone.response)
    · exact absurd ⟨hlen.trans_le hbuf, hval⟩ hc
  · obtain ⟨u, m, hrun, hdone⟩ := exec_unpack_done ha
    have hframe := exec_frame hrun
    exact ⟨u, hrun, exec_idle hrun, hdone.response, hframe.buf (show 2#2 ≠ 1#2 by decide), hframe.dstBeyond⟩

end Sys2Proof.Machine
end

section
/-! PROOFS. The statements about errors: which status the fixed order of the checks gives (rules R59, R146), and that
an error leaves nothing behind (rules R147, R149). -/

namespace Sys2Proof.Machine

/-! ### The order of the checks (rules R141, R142, R146) -/

/-- A command that is validated and answered fails one of the two operand checks, or its operands are accepted. -/
theorem validated_accept_cases {c : Instr} {s t : State} {body : State → Result State}
    (h : validated (accept c s) body = .next t) :
    (¬ widthValid c.bitWidth.toNat ∧ t = s.answer c .invalidBitWidth (neededBy c)) ∨
    (widthValid c.bitWidth.toNat ∧ c.bufLen.toNat < neededBy c ∧ t = s.answer c .bufferTooSmall (neededBy c)) ∨
    s.accepts c.bitWidth c.count c.bufLen := by
  rcases validated_cases (accept c s) body with ⟨hw, e⟩ | ⟨hw, hshort, e⟩ | ⟨-, -, -, e⟩ | ⟨hw, hlong, hexists, -⟩
  · cases e.symm.trans h; exact .inl ⟨hw, rfl⟩
  · cases e.symm.trans h; exact .inr (.inl ⟨hw, hshort, rfl⟩)
  · cases e.symm.trans h
  · exact .inr (.inr ⟨hw, hlong, hexists⟩)

/-- An accepted PACK completes, or strict mode reports the lowest index out of range (rules R82, R143). -/
theorem exec_pack_accepted_cases {w : WidthOperand} {n len : CountOperand} {s t : State} (ha : s.accepts w n len)
    (h : exec (.pack w n len) s = .next t) :
    (∃ j < n.toNat, s.params.strict = true ∧ 2 ^ w.toNat - 1 < (s.srcWord j).toNat ∧ s.valuesFit w.toNat j ∧
      t = s.answer (.pack w n len) .valueOutOfRange j) ∨
    (s.valuesAccepted w.toNat n.toNat ∧ ∃ m, PackDone (.pack w n len) s t m) := by
  have ⟨_, _, _, hval⟩ := ha
  obtain ⟨-, hfit⟩ | ⟨j, hj, hs, hout, hlow, hreject⟩ := packBody_cases (s := accept (.pack w n len) s) hval
  · have hv : s.valuesAccepted w.toNat n.toNat := fun hs j hj => not_lt.mp (hfit hs j hj)
    obtain ⟨t', m, ht, hdone⟩ := exec_pack_done ha hv
    cases ht.symm.trans h
    exact .inr ⟨hv, m, hdone⟩
  · cases ((exec_pack_accepted ha).trans hreject).symm.trans h
    exact .inl ⟨j, hj, hs, hout, fun l hl => not_lt.mp (hlow l hl), rfl⟩

/-! ### What an error leaves behind (rules R147, R149) -/

/-- An error changes the latched operands and the response, and nothing else. -/
theorem exec_eq_answer_of_error {c : Instr} {s t : State} (h : exec c s = .next t)
    (herr : ∀ r, t.response = some r → r.status ≠ .ok) : ∃ st info, t = s.answer c st info := by
  cases exec_ends c s with
  | size _ he => cases he.symm.trans h; exact ⟨_, _, rfl⟩
  | reserved _ he => cases he.symm.trans h; exact ⟨_, _, rfl⟩
  | invalidBitWidth _ _ he => cases he.symm.trans h; exact ⟨_, _, rfl⟩
  | bufferTooSmall _ _ _ he => cases he.symm.trans h; exact ⟨_, _, rfl⟩
  | refused _ _ _ _ he => cases he.symm.trans h
  | valueOutOfRange _ _ _ _ _ _ _ he => cases he.symm.trans h; exact ⟨_, _, rfl⟩
  | pack _ _ _ _ _ hd he => cases he.symm.trans h; exact absurd rfl (herr _ hd.response)
  | unpack _ _ _ _ hd he => cases he.symm.trans h; exact absurd rfl (herr _ hd.response)

/-! ### The statements about errors -/

/-- Settles O15: SIZE and the reserved code are answered at once, PACK and UNPACK by validation or past it. -/
theorem responseFollowsFixedOrder : Obligations.ResponseFollowsFixedOrder := by
  unfold Obligations.ResponseFollowsFixedOrder
  intro c s t h
  refine ⟨exec_idle h, ?_⟩
  cases c with
  | size w n len => cases h; exact ⟨_, rfl, rfl⟩
  | reserved w n len => cases h; exact ⟨_, rfl, rfl⟩
  | unpack w n len =>
    obtain ⟨hw, rfl⟩ | ⟨hw, hshort, rfl⟩ | ha := validated_accept_cases ((exec_unpack w n len s).symm.trans h)
    · exact ⟨_, rfl, .inl ⟨hw, rfl⟩⟩
    · exact ⟨_, rfl, .inr (.inl ⟨hw, not_le.mpr hshort, rfl⟩)⟩
    · obtain ⟨u, m, hrun, hdone⟩ := exec_unpack_done ha
      cases hrun.symm.trans h
      obtain ⟨hw, hlong, -⟩ := ha
      exact ⟨_, hdone.response, .inr (.inr ⟨hw, hlong, rfl⟩)⟩
  | pack w n len =>
    obtain ⟨hw, rfl⟩ | ⟨hw, hshort, rfl⟩ | ha := validated_accept_cases ((exec_pack w n len s).symm.trans h)
    · exact ⟨_, rfl, .inl ⟨hw, rfl⟩⟩
    · exact ⟨_, rfl, .inr (.inl ⟨hw, not_le.mpr hshort, rfl⟩)⟩
    · have hends := exec_pack_accepted_cases ha h
      obtain ⟨hw, hlong, -⟩ := ha
      obtain ⟨j, hj, hs, hout, hlow, rfl⟩ | ⟨hv, m, hdone⟩ := hends
      · exact ⟨_, rfl, .inr (.inr (.inl ⟨hw, hlong, hs, j, hj, hout, hlow, rfl⟩))⟩
      · exact ⟨_, hdone.response, .inr (.inr (.inr ⟨hw, hlong, hv, rfl⟩))⟩

/-- Settles O13: the length is checked right after the width, and the fixed order leaves this status to no longer
buffer. -/
theorem shortBufferRejected : Obligations.ShortBufferRejected := by
  unfold Obligations.ShortBufferRejected
  intro w n len s hw
  refine ⟨fun hshort => ?_, fun hlong t r h hr => ?_⟩
  · exact ⟨(exec_pack w n len s).trans (validated_bufferTooSmall (s := accept (.pack w n len) s) hw hshort),
      (exec_unpack w n len s).trans (validated_bufferTooSmall (s := accept (.unpack w n len) s) hw hshort)⟩
  · obtain h | h := h
    · obtain ⟨-, r', hr', horder⟩ := responseFollowsFixedOrder _ s t h
      cases hr.symm.trans hr'
      obtain ⟨hbad, -⟩ | ⟨-, hshort, -⟩ | ⟨-, -, -, j, -, -, -, rfl⟩ | ⟨-, -, -, rfl⟩ := horder
      · exact absurd hw hbad
      · exact absurd hlong hshort
      · exact nofun
      · exact nofun
    · obtain ⟨-, r', hr', horder⟩ := responseFollowsFixedOrder _ s t h
      cases hr.symm.trans hr'
      obtain ⟨hbad, -⟩ | ⟨-, hshort, -⟩ | ⟨-, -, rfl⟩ := horder
      · exact absurd hw hbad
      · exact absurd hlong hshort
      · exact nofun

/-- Settles O17: an error changes no field that holds a memory. -/
theorem errorsLeaveMemoriesUnchanged : Obligations.ErrorsLeaveMemoriesUnchanged := by
  unfold Obligations.ErrorsLeaveMemoriesUnchanged
  intro c s t h herr
  obtain ⟨st, info, rfl⟩ := exec_eq_answer_of_error h herr
  exact ⟨rfl, rfl, rfl⟩

/-- Settles O18: the state after an error has the parameters and memories of the state before, and a command's outcome
depends on these alone (rule R11). -/
theorem errorsDoNotLatch : Obligations.ErrorsDoNotLatch := by
  unfold Obligations.ErrorsDoNotLatch
  intro c s t h
  refine ⟨exec_idle h, fun herr => ?_⟩
  obtain ⟨st, info, ht⟩ := exec_eq_answer_of_error h herr
  have hsame : ∀ (d : Instr) (u : State), exec d s = .next u → ∃ v, exec d t = .next v ∧ SameOutcome v u := by
    subst ht
    exact fun d u hu => outcomeDependsOnMemoriesOnly d s _ u rfl rfl rfl rfl hu
  obtain ⟨v, hv, hresponse, -⟩ := hsame c t h
  exact ⟨hsame, v, hv, hresponse⟩

/-- Settles O7: the shift by 3 is the division of the size formula. -/
theorem sizeAnswersByteCount : Obligations.SizeAnswersByteCount := by
  unfold Obligations.SizeAnswersByteCount
  intro w n len s
  rw [Nat.shiftRight_eq_div_pow]
  exact exec_size w n len s

/-- Settles O11, by the meaning of the reserved code. -/
theorem reservedAnswersIllegalCommand : Obligations.ReservedAnswersIllegalCommand := by
  unfold Obligations.ReservedAnswersIllegalCommand
  exact exec_reserved

/-- Settles O12: the width is checked before everything else, and SIZE does not check it. -/
theorem invalidWidthRejectedFirst : Obligations.InvalidWidthRejectedFirst := by
  unfold Obligations.InvalidWidthRejectedFirst
  intro w n len s hbad
  have hw : ¬ widthValid w.toNat := by omega
  exact ⟨(exec_pack w n len s).trans (validated_invalidBitWidth (s := accept (.pack w n len) s) hw),
    (exec_unpack w n len s).trans (validated_invalidBitWidth (s := accept (.unpack w n len) s) hw), exec_size w n len s⟩

/-- Settles O16, status by status. -/
theorem statusCodesOfTable : Obligations.StatusCodesOfTable := by
  unfold Obligations.StatusCodesOfTable
  refine ⟨rfl, rfl, rfl, rfl, rfl, fun st => ?_⟩
  cases st <;> decide

end Sys2Proof.Machine
end

section
/-! PROOFS. The statements about reset (rules R170 to R173), about a step of a busy block (rules R172, R184), and about
refusal (rule R181). -/

namespace Sys2Proof.Machine

/-- A reset leaves what the next command reads as it was before: the memories and the parameters (rule R11). -/
theorem resetLeaves_performReset {s u : State} (hparams : u.params = s.params) (hsrc : u.src = s.src)
    (hbuf : u.buf = s.buf) (hdst : u.dst = s.dst) : ResetLeaves s (performReset u) :=
  ⟨rfl, rfl, rfl, hsrc, hbuf, hdst, hparams, fun c t h =>
    outcomeDependsOnMemoriesOnly c s (performReset u) t hparams.symm hsrc.symm hbuf.symm hdst.symm h⟩

/-- Settles O46: both ways of asserting reset perform it, and it touches no memory. -/
theorem resetAbandonsOperation : Obligations.ResetAbandonsOperation := by
  unfold Obligations.ResetAbandonsOperation
  refine ⟨fun s hr => ?_, fun s rest ha hr hg => ?_⟩
  · exact ⟨_, step_reset_due hr, rfl, resetLeaves_performReset rfl rfl rfl rfl⟩
  · exact ⟨_, step_idle_host ha hr hg, rfl, resetLeaves_performReset rfl rfl rfl rfl⟩

/-- Settles O43: at reset the memories list no cell and the block is idle. -/
theorem resetMeetsInvariant : Obligations.ResetMeetsInvariant := by
  unfold Obligations.ResetMeetsInvariant
  have hmem : State.reset.memWf = true :=
    (memWf_iff _).mpr ⟨Memory.wf_nil _ _, Memory.wf_nil _ _, Memory.wf_nil _ _⟩
  exact (inv_iff _).mpr ⟨by decide, hmem, activityOk_of_idle rfl⟩

/-- Settles O45, field by field. -/
theorem stateAfterReset : Obligations.StateAfterReset := by
  unfold Obligations.StateAfterReset
  exact ⟨rfl, rfl, by decide⟩

/-- Settles O55: a step of a busy block is its next transition, and acceptance is the host's move. -/
theorem busyStepIsOneAccess : Obligations.BusyStepIsOneAccess := by
  unfold Obligations.BusyStepIsOneAccess
  refine ⟨fun s p ha hr => ?_, fun s p k ha hr => ?_, fun s word k rest ha hr hg => ?_⟩
  · calc step s = tick p (s.withHost s.agenda (s.resetIn.map Nat.pred)) := step_busy ha (by simp [hr])
      _ = tick p (s.withHost s.agenda s.resetIn) := by rw [hr]; rfl
      _ = tick p s := rfl
  · rw [step_busy ha (by simp [hr]), hr]
    rfl
  · exact ⟨_, step_idle_host ha hr hg, rfl, rfl, rfl, rfl, rfl, rfl, rfl, rfl, rfl, rfl, rfl⟩

/-- Settles O19: of the ways a command can end one is a refusal, and validation refuses exactly there. -/
theorem refusedExactlyBeyondCapacity : Obligations.RefusedExactlyBeyondCapacity := by
  unfold Obligations.RefusedExactlyBeyondCapacity
  intro c s r
  constructor
  · intro h
    cases exec_ends c s with
    | size _ he => cases he.symm.trans h
    | reserved _ he => cases he.symm.trans h
    | invalidBitWidth _ _ he => cases he.symm.trans h
    | bufferTooSmall _ _ _ he => cases he.symm.trans h
    | refused hop hw hl hc he => cases he.symm.trans h; exact ⟨rfl, hop, hw.1, hw.2, hl, hc⟩
    | valueOutOfRange _ _ _ _ _ _ _ he => cases he.symm.trans h
    | pack _ _ _ _ _ _ he => cases he.symm.trans h
    | unpack _ _ _ _ _ he => cases he.symm.trans h
  · rintro ⟨rfl, hop, hlo, hhi, hl, hc⟩
    cases c with
    | size w n len => exact absurd hop (show ¬ (0#2 = 1#2 ∨ 0#2 = 2#2) by decide)
    | pack w n len =>
      exact (exec_pack w n len s).trans (validated_beyondCapacity (s := accept (.pack w n len) s) ⟨hlo, hhi⟩ hl hc)
    | unpack w n len =>
      exact (exec_unpack w n len s).trans (validated_beyondCapacity (s := accept (.unpack w n len) s) ⟨hlo, hhi⟩ hl hc)
    | reserved w n len => exact absurd hop (show ¬ (3#2 = 1#2 ∨ 3#2 = 2#2) by decide)

end Sys2Proof.Machine
end

section
/-! PROOFS. The element loop access by access: the states it passes through (rules R38, R87, R105), and that it ends
where the atomic operation ends (rule R184). -/

namespace Sys2Proof.Machine

/-! ### The states an element loop passes through -/

/-- The last of the element steps, split off. -/
theorem elements_succ_last (f : State → Result State) (k : Nat) (s : State) :
    elements f (k + 1) s = andThen (elements f k s) f := by
  induction k generalizing s with
  | zero =>
    rw [elements_succ, elements_zero, andThen_next]
    cases f s <;> rfl
  | succ k ih =>
    rw [elements_succ, elements_succ f k]
    cases f s with
    | next s1 => exact ih s1
    | fault e => rfl
    | refused e => rfl

/-- The state with the cursor at element `k` and with these contents of BUF and DST. -/
def State.atCursor (a : State) (k : Nat) (buf : Memory Byte) (dst : Memory Value) : State :=
  { a with buf := buf, dst := dst, i := BitVec.ofNat 32 k, bitpos := BitVec.ofNat 35 (k * a.w.toNat) }

section
variable {a : State} {k : Nat} {buf : Memory Byte} {dst : Memory Value}

theorem atCursor_i (hk : k ≤ a.n.toNat) : (a.atCursor k buf dst).i.toNat = k := by
  have hn : a.n.toNat < 2 ^ 32 := a.n.isLt
  exact (BitVec.toNat_ofNat ..).trans (Nat.mod_eq_of_lt (by omega))

theorem atCursor_bitpos (hw : a.w.toNat ≤ 8) (hk : k ≤ a.n.toNat) :
    (a.atCursor k buf dst).bitpos.toNat = k * a.w.toNat := by
  have hn : a.n.toNat < 2 ^ 32 := a.n.isLt
  have hle : k * a.w.toNat ≤ (2 ^ 32 - 1) * 8 := Nat.mul_le_mul (by omega) hw
  exact (BitVec.toNat_ofNat ..).trans (Nat.mod_eq_of_lt (by omega))

theorem atCursor_atElement (hok : a.operandsOk = true) (hk : k < a.n.toNat) : AtElement (a.atCursor k buf dst) := by
  have hi : (a.atCursor k buf dst).i.toNat = k := atCursor_i hk.le
  have hpos : (a.atCursor k buf dst).bitpos.toNat = k * a.w.toNat := atCursor_bitpos (width_le_eight hok) hk.le
  obtain ⟨hw, hl, hbuf, hval⟩ := (operandsOk_iff a).mp hok
  exact ⟨hw, hl.trans hbuf, hval, hi.trans_lt hk, hpos.trans (congrArg (· * a.w.toNat) hi.symm)⟩

end

section
variable {a e : State} {k : Nat} (hok : a.operandsOk = true) (hk : k ≤ a.n.toNat)
include hok hk

/-- After `k` element steps of PACK the packed bits of `k` elements are in BUF, the rest is as before. -/
theorem elements_pack_from_start (he : elements packElement k (startLoop a) = .next e) :
    ∃ m, e = a.atCursor k m a.dst ∧
      ∀ p, e.bufBit p = (a.bufBit p || (decide (p < k * a.w.toNat) && a.sourceBit a.w.toNat p)) := by
  obtain ⟨hw, hl, hbuf, hval⟩ := (operandsOk_iff a).mp hok
  obtain ⟨m, hm, hbits⟩ := elements_pack k (s := startLoop a) hw (hl.trans hbuf) hval (by simpa using hk) (by simp)
  obtain rfl := Host.Outcome.next.inj (he.symm.trans hm)
  refine ⟨m, ?_, fun p => (hbits p).trans ?_⟩
  · simp [State.atCursor, startLoop]
  · have hzero : (startLoop a).i.toNat = 0 := rfl
    simp only [hzero, startLoop_w, Nat.zero_mul, Nat.zero_le, true_and, Nat.zero_add]
    rfl

/-- After `k` element steps of UNPACK the fields of `k` elements are in DST, the rest is as before. -/
theorem elements_unpack_from_start (he : elements unpackElement k (startLoop a) = .next e) :
    ∃ m, e = a.atCursor k a.buf m ∧
      (∀ j < k, ∀ b, (e.dstWord j).getLsbD b =
        (decide (b < a.w.toNat) && a.bufBit (j * a.w.toNat + (a.w.toNat - 1 - b)))) ∧
      ∀ j, k ≤ j → e.dstWord j = a.dstWord j := by
  obtain ⟨hw, hl, hbuf, hval⟩ := (operandsOk_iff a).mp hok
  obtain ⟨m, hm, hin, hout⟩ :=
    elements_unpack k (s := startLoop a) hw (hl.trans hbuf) hval (by simpa using hk) (by simp)
  obtain rfl := Host.Outcome.next.inj (he.symm.trans hm)
  refine ⟨m, ?_, fun j hj b => hin j (by simp) (by simpa using hj) b, fun j hj => hout j (by simpa using hj)⟩
  simp [State.atCursor, startLoop]

end

/-! ### Access by access (rules R38, R184) -/

theorem tick_packSource_end {e : State} (hi : ¬ e.i.toNat < e.n.toNat) :
    tick .packSource (e.goto .packSource) = .next (deliver .ok e.needed e) := if_neg hi

theorem tick_unpackRead_end {e : State} (hi : ¬ e.i.toNat < e.n.toNat) :
    tick .unpackRead (e.goto .unpackRead) = .next (deliver .ok e.needed e) := if_neg hi

/-- What the loops of PACK and UNPACK have in common: the cursor counts the element steps, each step run access by
access leads from the head of the loop to its head, and past the last element the head responds. -/
structure LoopByAccess (step : State → Result State) (head : Point) : Prop where
  cursor : ∀ {a e : State} {k : Nat}, a.operandsOk = true → k ≤ a.n.toNat →
    elements step k (startLoop a) = .next e → ∃ buf dst, e = a.atCursor k buf dst
  element : ∀ {e e' : State}, AtElement e → step e = .next e' →
    ∃ m ≤ 5, ticks m (e.goto head) = .next (e'.goto head)
  finish : ∀ {e : State}, ¬ e.i.toNat < e.n.toNat → tick head (e.goto head) = .next (deliver .ok e.needed e)

theorem packLoopByAccess : LoopByAccess packElement .packSource where
  cursor hok hk he := by
    obtain ⟨m, rfl, -⟩ := elements_pack_from_start hok hk he
    exact ⟨_, _, rfl⟩
  element hat he := by
    obtain rfl := Host.Outcome.next.inj ((packElement_next hat).symm.trans he)
    obtain ⟨m, hm, -, hrun⟩ := ticks_packElement hat
    exact ⟨m, hm, hrun⟩
  finish hi := tick_packSource_end hi

theorem unpackLoopByAccess : LoopByAccess unpackElement .unpackRead where
  cursor hok hk he := by
    obtain ⟨m, rfl, -, -⟩ := elements_unpack_from_start hok hk he
    exact ⟨_, _, rfl⟩
  element hat he := by
    obtain rfl := Host.Outcome.next.inj ((unpackElement_next hat).symm.trans he)
    obtain ⟨m, hm, -, hrun⟩ := ticks_unpackElement hat
    exact ⟨m, hm, hrun⟩
  finish hi := tick_unpackRead_end hi

section
variable {step : State → Result State} {head : Point} {a : State} (hloop : LoopByAccess step head)
  (hok : a.operandsOk = true)
include hloop hok

/-- The element steps access by access: at most five transitions each. -/
theorem LoopByAccess.ticks_elements (k : Nat) {e : State} (hk : k ≤ a.n.toNat)
    (he : elements step k (startLoop a) = .next e) :
    ∃ m ≤ 5 * k, ticks m ((startLoop a).goto head) = .next (e.goto head) := by
  induction k generalizing e with
  | zero => cases he; exact ⟨0, le_rfl, rfl⟩
  | succ k ih =>
    rw [elements_succ_last] at he
    obtain ⟨d, hd, he⟩ := andThen_eq_next.mp he
    obtain ⟨m, hm, hrun⟩ := ih (by omega) hd
    obtain ⟨buf, dst, rfl⟩ := hloop.cursor hok (by omega) hd
    obtain ⟨m', hm', hrun'⟩ := hloop.element (atCursor_atElement hok hk) he
    exact ⟨m + m', by omega, by rw [ticks_add, hrun, andThen_next, hrun']⟩

/-- The whole loop access by access, with the response after it. -/
theorem LoopByAccess.ticks_elementLoop {t : State} (ht : elementLoop step a = .next t) :
    ∃ m ≤ 5 * a.n.toNat + 1, ticks m ((startLoop a).goto head) = .next t := by
  obtain ⟨e, he, ht⟩ := andThen_eq_next.mp ht
  cases ht
  obtain ⟨m, hm, hrun⟩ := hloop.ticks_elements hok a.n.toNat le_rfl he
  obtain ⟨buf, dst, rfl⟩ := hloop.cursor hok le_rfl he
  have hend : ¬ (a.atCursor a.n.toNat buf dst).i.toNat < a.n.toNat := by rw [atCursor_i le_rfl]; exact lt_irrefl _
  refine ⟨m + 1, by omega, ?_⟩
  rw [ticks_add, hrun, andThen_next, ticks_goto, hloop.finish hend]
  rfl

end

/-- What the pre-scan leads to: the error, or the head of PACK's loop (rule R82). -/
def afterScan (s : State) : Option Nat → State
  | some j => deliver .valueOutOfRange j s
  | none => (startLoop s).goto .packSource

/-- The pre-scan access by access: one transition for each read, and one for its end. -/
theorem ticks_scan (s : State) (count : Nat) {k : Nat} {hit : Option Nat} (hk : k + count = s.n.toNat)
    (h : scan s count k = .next hit) : ∃ m ≤ count + 1, ticks m (s.goto (.scan k)) = .next (afterScan s hit) := by
  induction count generalizing k with
  | zero =>
    cases h
    have hend : ¬ k < s.n.toNat := by omega
    refine ⟨1, le_rfl, ?_⟩
    have htick : tick (.scan k) (s.goto (.scan k)) = .next (enterPackLoop s) := if_neg hend
    rw [ticks_goto, htick]
    rfl
  | succ count ih =>
    obtain ⟨v, hv, h⟩ := andThen_eq_next.mp h
    have hlt : k < s.n.toNat := by omega
    have hread : readSrc (s.goto (.scan k)) k = .next v := hv
    have htick : tick (.scan k) (s.goto (.scan k)) = .next
        (if outOfRange v s.w.toNat then deliver .valueOutOfRange k s else s.goto (.scan (k + 1))) := by
      simp only [tick, tickScan, goto_n, if_pos hlt, hread]
      rfl
    split at h
    · next hout =>
      cases h
      exact ⟨1, by omega, by rw [ticks_goto, htick, if_pos hout]; rfl⟩
    · next hin =>
      obtain ⟨m, hm, hrun⟩ := ih (by omega) h
      exact ⟨m + 1, by omega, by rw [ticks_goto, htick, if_neg hin]; exact hrun⟩

/-- Where the validation of PACK leaves the block: at the pre-scan in strict mode, else at the head of the loop (rules
R80, R82). -/
def packStart (s : State) : State := if s.params.strict then s.goto (.scan 0) else enterPackLoop s

/-- The body of PACK access by access. -/
theorem ticks_packBody {a t : State} (hok : a.operandsOk = true) (ht : packBody a = .next t) :
    ∃ m ≤ 6 * a.n.toNat + 2, ticks m (packStart a) = .next t := by
  obtain ⟨hit, hscan, ht⟩ := andThen_eq_next.mp ht
  have hrest : ∃ m ≤ 5 * a.n.toNat + 1, ticks m (afterScan a hit) = .next t := by
    cases hit with
    | some j => cases ht; exact ⟨0, by omega, rfl⟩
    | none => exact packLoopByAccess.ticks_elementLoop hok ht
  obtain ⟨m, hm, hrun⟩ := hrest
  unfold strictScan at hscan
  split at hscan
  · next hs =>
    obtain ⟨m', hm', hrun'⟩ := ticks_scan a a.n.toNat (Nat.zero_add _) hscan
    exact ⟨m' + m, by omega, by rw [packStart, if_pos hs, ticks_add, hrun', andThen_next, hrun]⟩
  · next hs =>
    cases hscan
    exact ⟨m, by omega, by rw [packStart, if_neg hs]; exact hrun⟩

/-! ### From acceptance -/

theorem ticks_accept (k : Nat) (c : Instr) (s : State) :
    ticks (k + 1) (accept c s) = andThen (tickCheck (accept c s)) (ticks k) := rfl

theorem tickCheck_pack (w : WidthOperand) (n len : CountOperand) (s : State) :
    tickCheck (accept (.pack w n len) s) = validated (accept (.pack w n len) s) fun s => .next (packStart s) := rfl

theorem tickCheck_unpack (w : WidthOperand) (n len : CountOperand) (s : State) :
    tickCheck (accept (.unpack w n len) s) = validated (accept (.unpack w n len) s) fun s =>
      .next ((startLoop s).goto .unpackRead) := rfl

/-- An operation that is validated and answered: its error takes one transition, and past validation its body takes
those of its accesses more. -/
theorem ticks_validated {a t : State} {body : State → Result State} {enter : State → State} {bound : Nat}
    (hbody : a.operandsOk = true → body a = .next t → ∃ m ≤ bound, ticks m (enter a) = .next t)
    (h : validated a body = .next t) :
    ∃ m ≤ bound, andThen (validated a fun s => .next (enter s)) (ticks m) = .next t := by
  rcases validated_cases a body with ⟨hw, e⟩ | ⟨hw, hl, e⟩ | ⟨-, -, -, e⟩ | ⟨hw, hl, hc, e⟩ <;> rw [e] at h
  · exact ⟨0, Nat.zero_le _, by rw [validated_invalidBitWidth hw]; exact h⟩
  · exact ⟨0, Nat.zero_le _, by rw [validated_bufferTooSmall hw hl]; exact h⟩
  · cases h
  · obtain ⟨m, hm, hrun⟩ := hbody ((operandsOk_iff a).mpr ⟨hw, hl, hc⟩) h
    exact ⟨m, hm, by rw [validated_body hw hl hc]; exact hrun⟩

/-- A command that is answered is answered access by access as well, after no more transitions than this. -/
theorem ticks_of_exec {c : Instr} {s t : State} (h : exec c s = .next t) :
    ∃ m ≤ 6 * c.count.toNat + 2, ticks (m + 1) (accept c s) = .next t := by
  cases c with
  | size w n len => exact ⟨0, Nat.zero_le _, h⟩
  | reserved w n len => exact ⟨0, Nat.zero_le _, h⟩
  | pack w n len => exact ticks_validated (enter := packStart) (fun hok hbody => ticks_packBody hok hbody) h
  | unpack w n len =>
    refine ticks_validated (enter := fun s => (startLoop s).goto .unpackRead) (fun hok hbody => ?_) h
    obtain ⟨m, hm, hrun⟩ := unpackLoopByAccess.ticks_elementLoop hok hbody
    exact ⟨m, by simp only [accept_n] at hm; omega, hrun⟩

/-- A command that is refused is refused at validation (log entry 4). -/
theorem ticks_one_of_refused {c : Instr} {s : State} {r : Refusal} (h : exec c s = .refused r) :
    ticks 1 (accept c s) = .refused r := by
  obtain ⟨rfl, hop, hlo, hhi, hl, hc⟩ := (refusedExactlyBeyondCapacity c s r).mp h
  rw [ticks_accept]
  cases c with
  | size w n len => cases h
  | pack w n len =>
    rw [tickCheck_pack, validated_beyondCapacity (s := accept (.pack w n len) s) ⟨hlo, hhi⟩ hl hc, andThen_refused]
  | unpack w n len =>
    rw [tickCheck_unpack, validated_beyondCapacity (s := accept (.unpack w n len) s) ⟨hlo, hhi⟩ hl hc, andThen_refused]
  | reserved w n len => cases h

/-- Settles O41: acceptance and validation take one transition, the rest is the run of the body. -/
theorem accessesRefineOperation : Obligations.AccessesRefineOperation := by
  unfold Obligations.AccessesRefineOperation
  refine fun c s => ⟨fun t h => ?_, fun r h => ticks_one_of_refused h⟩
  obtain ⟨m, hm, hrun⟩ := ticks_of_exec h
  exact ⟨m + 1, by omega, hrun⟩

end Sys2Proof.Machine
end

section
/-! PROOFS. What a reset during an operation leaves (rule R172): every state a PACK or UNPACK passes through access by
access, and what it holds in BUF and DST. -/

namespace Sys2Proof.Machine

/-- What every transition of a busy block keeps, the transitions together keep. -/
theorem ticks_keep {P : State → Prop}
    (hP : ∀ (p : Point) (s t : State), s.activity = .busy p → tick p s = .next t → P s → P t) (k : Nat) {s t : State}
    (h : ticks k s = .next t) (hs : P s) : P t := by
  induction k generalizing s with
  | zero => cases h; exact hs
  | succ k ih =>
    cases ha : s.activity with
    | idle => cases (ticks_idle (k + 1) ha).symm.trans h; exact hs
    | busy p =>
      simp only [ticks, ha] at h
      obtain ⟨s1, h1, h⟩ := andThen_eq_next.mp h
      exact ih h (hP p s s1 ha h1 hs)

/-! ### After some of the element steps -/

/-- `e` is where `k` of the element steps of the operation accepted in `a` lead. -/
structure StepsDone (step : State → Result State) (a : State) (k : Nat) (e : State) : Prop where
  le : k ≤ a.n.toNat
  run : elements step k (startLoop a) = .next e

section
variable {step : State → Result State} {head : Point} {a e e' : State} {k : Nat}

theorem stepsDone_zero : StepsDone step a 0 (startLoop a) := ⟨Nat.zero_le _, rfl⟩

theorem StepsDone.succ (h : StepsDone step a k e) (hk : k < a.n.toNat) (he : step e = .next e') :
    StepsDone step a (k + 1) e' := ⟨hk, by rw [elements_succ_last, h.run, andThen_next, he]⟩

theorem StepsDone.atElement (hloop : LoopByAccess step head) (hok : a.operandsOk = true) (h : StepsDone step a k e)
    (hk : k < a.n.toNat) : AtElement e := by
  obtain ⟨buf, dst, rfl⟩ := hloop.cursor hok h.le h.run
  exact atCursor_atElement hok hk

/-- Past the last element the head of the loop responds. -/
theorem StepsDone.finish (hloop : LoopByAccess step head) (hok : a.operandsOk = true) (h : StepsDone step a k e)
    (hk : ¬ k < a.n.toNat) : tick head (e.goto head) = .next (deliver .ok e.needed e) := by
  obtain ⟨buf, dst, rfl⟩ := hloop.cursor hok h.le h.run
  refine hloop.finish ?_
  rw [atCursor_i h.le]
  exact hk

end

/-! ### The byte accesses of PACK's element step, in the states they are made in (rules R38, R86) -/

section
variable {e : State} (h : AtElement e)
include h

theorem tick_packFirstWrite_at :
    let v := e.srcWord e.i.toNat
    let b := e.bufByte (byteIndex e.bitpos.toNat)
    tick (.packFirstWrite v b) (e.goto (.packFirstWrite v b)) = .next (if fits e.bitpos.toNat e.w.toNat
      then (advance { e with buf := packedStep e }).goto .packSource
      else e.packFirstByte.goto (.packSecondRead v)) := by
  refine (tick_packFirstWrite h _ _).trans ?_
  by_cases hf : fits e.bitpos.toNat e.w.toNat
  · simp only [if_pos hf, packedStep_of_fits hf]
    rfl
  · simp only [if_neg hf]
    rfl

theorem tick_packSecondRead_at (hf : ¬ fits e.bitpos.toNat e.w.toNat) (v : Value) :
    tick (.packSecondRead v) (e.packFirstByte.goto (.packSecondRead v)) =
      .next (e.packFirstByte.goto (.packSecondWrite v (e.bufByte (byteIndex e.bitpos.toNat + 1)))) := by
  rw [tick_packSecondRead (s := e.packFirstByte) (h.second_lt hf), ← packFirstByte_other (s := e) (Nat.succ_ne_self _)]
  rfl

theorem tick_packSecondWrite_at (hf : ¬ fits e.bitpos.toNat e.w.toNat) :
    let v := e.srcWord e.i.toNat
    let b := e.bufByte (byteIndex e.bitpos.toNat + 1)
    tick (.packSecondWrite v b) (e.packFirstByte.goto (.packSecondWrite v b)) =
      .next ((advance { e with buf := packedStep e }).goto .packSource) := by
  refine (tick_packSecondWrite (s := e.packFirstByte) (h.second_lt hf) _ _).trans ?_
  rw [packedStep_of_spills hf, packFirstByte_other (Nat.succ_ne_self _)]
  rfl

end

/-! ### The states of a PACK (rules R38, R172) -/

/-- The forms of the states that the PACK accepted in `a` passes through, access by access. -/
inductive PackPasses (a : State) : State → Prop
  | check : PackPasses a a
  | scan (k : Nat) : PackPasses a (a.goto (.scan k))
  | rejected (st : Status) (info : Nat) : PackPasses a (deliver st info a)
  | source {k : Nat} {e : State} (h : StepsDone packElement a k e) : PackPasses a (e.goto .packSource)
  | firstRead {k : Nat} {e : State} (h : StepsDone packElement a k e) (hk : k < a.n.toNat) :
      PackPasses a (e.goto (.packFirstRead (e.srcWord e.i.toNat)))
  | firstWrite {k : Nat} {e : State} (h : StepsDone packElement a k e) (hk : k < a.n.toNat) :
      PackPasses a (e.goto (.packFirstWrite (e.srcWord e.i.toNat) (e.bufByte (byteIndex e.bitpos.toNat))))
  | secondRead {k : Nat} {e : State} (h : StepsDone packElement a k e) (hk : k < a.n.toNat)
      (hf : ¬ fits e.bitpos.toNat e.w.toNat) :
      PackPasses a (e.packFirstByte.goto (.packSecondRead (e.srcWord e.i.toNat)))
  | secondWrite {k : Nat} {e : State} (h : StepsDone packElement a k e) (hk : k < a.n.toNat)
      (hf : ¬ fits e.bitpos.toNat e.w.toNat) :
      PackPasses a (e.packFirstByte.goto
        (.packSecondWrite (e.srcWord e.i.toNat) (e.bufByte (byteIndex e.bitpos.toNat + 1))))
  | done {k : Nat} {e : State} (h : StepsDone packElement a k e) : PackPasses a (deliver .ok e.needed e)

theorem PackPasses.tick {a s t : State} {p : Point} (ha : a.activity = .busy .check) (hop : a.op = 1#2)
    (hok : a.operandsOk = true) (hs : PackPasses a s) (hp : s.activity = .busy p) (h : tick p s = .next t) :
    PackPasses a t := by
  cases hs with
  | check =>
    cases ha.symm.trans hp
    cases tick_cases h with
    | answer => exact .rejected _ _
    | startScan => exact .scan 0
    | startPack => exact .source stepsDone_zero
    | startUnpack hop' => exact absurd (hop.symm.trans hop') (by decide)
  | scan k =>
    cases hp
    cases tick_cases h with
    | answer => exact .rejected _ _
    | scanRead => exact .scan (k + 1)
    | scanEnd => exact .source (e := startLoop a) stepsDone_zero
  | rejected => cases hp
  | @source k e hd =>
    cases hp
    by_cases hk : k < a.n.toNat
    · cases (tick_packSource (hd.atElement packLoopByAccess hok hk)).symm.trans h
      exact .firstRead hd hk
    · cases (hd.finish packLoopByAccess hok hk).symm.trans h
      exact .done hd
  | firstRead hd hk =>
    cases hp
    cases (tick_packFirstRead (hd.atElement packLoopByAccess hok hk) _).symm.trans h
    exact .firstWrite hd hk
  | @firstWrite k e hd hk =>
    cases hp
    have hat := hd.atElement packLoopByAccess hok hk
    cases (tick_packFirstWrite_at hat).symm.trans h
    split
    · exact .source (hd.succ hk (packElement_next hat))
    · next hf => exact .secondRead hd hk hf
  | @secondRead k e hd hk hf =>
    cases hp
    cases (tick_packSecondRead_at (hd.atElement packLoopByAccess hok hk) hf _).symm.trans h
    exact .secondWrite hd hk hf
  | @secondWrite k e hd hk hf =>
    cases hp
    have hat := hd.atElement packLoopByAccess hok hk
    cases (tick_packSecondWrite_at hat hf).symm.trans h
    exact .source (hd.succ hk (packElement_next hat))
  | done => cases hp

theorem packPasses_of_ticks {w : WidthOperand} {n len : CountOperand} {s t : State} {k : Nat} (ha : s.accepts w n len)
    (h : ticks k (accept (.pack w n len) s) = .next t) : PackPasses (accept (.pack w n len) s) t :=
  ticks_keep (fun _ _ _ hp ht hs => hs.tick rfl rfl ((operandsOk_iff (accept (.pack w n len) s)).mpr ha) hp ht) k h
    .check

/-! ### BUF in each of them -/

/-- Bit by bit, the first byte write of an element step ORs in the part of the field that lies in that byte (rules R51,
R84, R86). -/
theorem packFirstByte_bit {e : State} (hw : widthValid e.w.toNat) (p : Nat) : e.packFirstByte.bufBit p =
    (e.bufBit p || (decide (e.bitpos.toNat ≤ p ∧ p < e.bitpos.toNat + e.w.toNat ∧
      p / 8 = byteIndex e.bitpos.toNat) && (e.srcWord e.i.toNat).getLsbD (e.w.toNat - 1 - (p - e.bitpos.toNat)))) := by
  have hfirst := firstOperand_bit (e.srcWord e.i.toNat) (p := e.bitpos.toNat) hw.2 (Nat.mod_lt p (by decide : 8 > 0))
  rw [State.packFirstByte, bufBit_or, hfirst]
  by_cases hbyte : p / 8 = byteIndex e.bitpos.toNat
  · by_cases hin : e.bitpos.toNat ≤ p ∧ p < e.bitpos.toNat + e.w.toNat
    · have hoff : offsetIndex e.bitpos.toNat ≤ p % 8 ∧ p % 8 < offsetIndex e.bitpos.toNat + e.w.toNat := by
        unfold offsetIndex; unfold byteIndex at hbyte; omega
      have hplace : p % 8 - offsetIndex e.bitpos.toNat = p - e.bitpos.toNat := by
        unfold offsetIndex; unfold byteIndex at hbyte; omega
      simp [hbyte, hin, hoff, hplace]
    · have hoff : ¬ (offsetIndex e.bitpos.toNat ≤ p % 8 ∧ p % 8 < offsetIndex e.bitpos.toNat + e.w.toNat) := by
        unfold offsetIndex; unfold byteIndex at hbyte; omega
      have hout : ¬ (e.bitpos.toNat ≤ p ∧ p < e.bitpos.toNat + e.w.toNat ∧ p / 8 = byteIndex e.bitpos.toNat) :=
        fun ⟨hlo, hhi, _⟩ => hin ⟨hlo, hhi⟩
      simp only [decide_eq_false hoff, decide_eq_false hout, Bool.false_and, Bool.and_false]
  · simp [hbyte]

/-- Whether position `p` belongs to one of the first `k` fields or, where `half` is set, to the part of field `k` that
lies in its first byte. -/
def positionDone (w k : Nat) (half : Bool) (p : Nat) : Bool :=
  decide (p < k * w) || (half && decide (p < k * w + w ∧ p / 8 = byteIndex (k * w)))

/-- The positions done, field by field. -/
theorem positionDone_field {w k j b : Nat} {half : Bool} (hb : b < w) : positionDone w k half (j * w + b) =
    (decide (j < k) || (decide (j = k) && half && decide ((j * w + b) / 8 = byteIndex (k * w)))) := by
  unfold positionDone
  rcases Nat.lt_trichotomy j k with hj | rfl | hj
  · have hle : (j + 1) * w ≤ k * w := Nat.mul_le_mul_right w hj
    have hlt : j * w + b < k * w := by rw [Nat.succ_mul] at hle; omega
    simp [hj, hlt]
  · simp [hb]
  · have hle : (k + 1) * w ≤ j * w := Nat.mul_le_mul_right w hj
    have hge : ¬ j * w + b < k * w + w := by rw [Nat.succ_mul] at hle; omega
    have hge' : ¬ j * w + b < k * w := by omega
    simp [hge, hge', hj.not_gt, hj.ne']

/-- BUF holds what it held in `a`, with the bits of the packed form at the positions done ORed in; the other memories and
the width are those of `a` (rule R172). -/
structure PackedPart (a t : State) (k : Nat) (half : Bool) : Prop where
  le : k ≤ a.n.toNat
  spills : half = true → k < a.n.toNat ∧ ¬ fits (k * a.w.toNat) a.w.toNat
  src : t.src = a.src
  dst : t.dst = a.dst
  width : t.w = a.w
  bits : ∀ p, t.bufBit p = (a.bufBit p || (positionDone a.w.toNat k half p && a.sourceBit a.w.toNat p))

section
variable {a t : State} {k : Nat} {half : Bool}

/-- Before the loop nothing is done. -/
theorem packedPart_zero : PackedPart a a 0 false :=
  ⟨Nat.zero_le _, nofun, rfl, rfl, rfl, fun p => by simp [positionDone]⟩

theorem PackedPart.goto (h : PackedPart a t k half) (p : Point) : PackedPart a (t.goto p) k half :=
  ⟨h.le, h.spills, h.src, h.dst, h.width, h.bits⟩

theorem PackedPart.deliver (h : PackedPart a t k half) (st : Status) (info : Nat) :
    PackedPart a (deliver st info t) k half :=
  ⟨h.le, h.spills, h.src, h.dst, h.width, h.bits⟩

theorem PackedPart.bufBit_of_zero (h : PackedPart a t 0 false) (p : Nat) : t.bufBit p = a.bufBit p := by
  simpa [positionDone] using h.bits p

theorem PackedPart.fieldBit (h : PackedPart a t k half) (j : Nat) {b : Nat} (hb : b < a.w.toNat) :
    t.bufBit (j * a.w.toNat + b) = (a.bufBit (j * a.w.toNat + b) ||
      (positionDone a.w.toNat k half (j * a.w.toNat + b) && (a.srcWord j).getLsbD (a.w.toNat - 1 - b))) := by
  rw [h.bits, sourceBit_in_field a (i := j) (by omega) (by omega), Nat.add_sub_cancel_left]

/-- No position beyond the last field is done. -/
theorem PackedPart.bufBit_beyond (h : PackedPart a t k half) {p : Nat} (hp : a.n.toNat * a.w.toNat ≤ p) :
    t.bufBit p = a.bufBit p := by
  have hk : k * a.w.toNat ≤ a.n.toNat * a.w.toNat := Nat.mul_le_mul_right _ h.le
  have hfull : ¬ p < k * a.w.toNat := by omega
  have hdone : positionDone a.w.toNat k half p = false := by
    cases half with
    | false => simp [positionDone, hfull]
    | true =>
      have hend := element_end_le (w := a.w.toNat) (h.spills rfl).1
      rw [Nat.mul_comm a.w.toNat] at hend
      have hpart : ¬ p < k * a.w.toNat + a.w.toNat := by omega
      simp [positionDone, hfull, hpart]
  rw [h.bits, hdone, Bool.false_and, Bool.or_false]

end

section
variable {a e : State} {k : Nat} (hok : a.operandsOk = true) (h : StepsDone packElement a k e)
include hok h

theorem StepsDone.pack_i : e.i.toNat = k := by
  obtain ⟨m, rfl, -⟩ := elements_pack_from_start hok h.le h.run
  exact atCursor_i h.le

theorem StepsDone.packedPart : PackedPart a e k false := by
  obtain ⟨m, rfl, hbits⟩ := elements_pack_from_start hok h.le h.run
  exact ⟨h.le, nofun, rfl, rfl, rfl, fun p => (hbits p).trans (by simp [positionDone])⟩

/-- Between the two byte writes of a spill step. -/
theorem StepsDone.packedPart_firstByte (hk : k < a.n.toNat) (hf : ¬ fits e.bitpos.toNat e.w.toNat) :
    PackedPart a e.packFirstByte k true := by
  obtain ⟨-, -, hsrc, hdst, hwidth, hbits⟩ := h.packedPart hok
  have hat := h.atElement packLoopByAccess hok hk
  have hi := h.pack_i hok
  have hpos := hat.cursor
  rw [hi, hwidth] at hpos
  rw [hpos, hwidth] at hf
  refine ⟨hk.le, fun _ => ⟨hk, hf⟩, hsrc, hdst, hwidth, fun p => ?_⟩
  rw [packFirstByte_bit hat.width, hbits, hpos, hi, hwidth, Bool.or_assoc]
  have hword : e.srcWord k = a.srcWord k := by rw [State.srcWord, hsrc]; rfl
  by_cases hin : k * a.w.toNat ≤ p ∧ p < k * a.w.toNat + a.w.toNat ∧ p / 8 = byteIndex (k * a.w.toNat)
  · obtain ⟨hlo, hhi, hbyte⟩ := hin
    rw [sourceBit_in_field a hlo hhi, hword]
    simp [positionDone, hlo, hhi, hbyte, not_lt.mpr hlo]
  · have hdone : positionDone a.w.toNat k true p = positionDone a.w.toNat k false p := by
      by_cases hlo : k * a.w.toNat ≤ p
      · have hpart : ¬ (p < k * a.w.toNat + a.w.toNat ∧ p / 8 = byteIndex (k * a.w.toNat)) := fun h => hin ⟨hlo, h⟩
        simp only [positionDone, decide_eq_false hpart, Bool.and_false]
      · simp only [positionDone, decide_eq_true (not_le.mp hlo), Bool.true_or]
    rw [hdone, decide_eq_false hin, Bool.false_and, Bool.or_false]

end

/-- How far a PACK has come in `t`, and that its point and `I` say so. -/
def PackStands (a t : State) : Prop :=
  ∃ k half, PackedPart a t k half ∧ ∀ point, t.activity = .busy point →
    (point.inPackLoop = false → k = 0 ∧ half = false) ∧
    (point.inPackLoop = true → t.i.toNat = k ∧ point.firstByteWritten = half)

section
variable {a e t : State} {k : Nat} {half : Bool}

theorem PackedPart.before_loop (h : PackedPart a t 0 false)
    (ht : ∀ point, t.activity = .busy point → point.inPackLoop = false) : PackStands a t :=
  ⟨0, false, h, fun point hp => ⟨fun _ => ⟨rfl, rfl⟩, fun hin => absurd ((ht point hp).symm.trans hin) nofun⟩⟩

theorem PackedPart.in_loop (h : PackedPart a e k half) (hi : e.i.toNat = k) {p : Point} (hin : p.inPackLoop = true)
    (hhalf : p.firstByteWritten = half) : PackStands a (e.goto p) := by
  refine ⟨k, half, h.goto p, fun point hp => ?_⟩
  cases hp
  exact ⟨fun hout => absurd (hin.symm.trans hout) nofun, fun _ => ⟨hi, hhalf⟩⟩

theorem PackPasses.stands (ha : a.activity = .busy .check) (hok : a.operandsOk = true) (h : PackPasses a t) :
    PackStands a t := by
  cases h with
  | check => exact packedPart_zero.before_loop fun point hp => by cases ha.symm.trans hp; rfl
  | scan k => exact (packedPart_zero.goto (.scan k)).before_loop fun point hp => by cases hp; rfl
  | rejected st info => exact (packedPart_zero.deliver st info).before_loop nofun
  | source hd => exact (hd.packedPart hok).in_loop (hd.pack_i hok) rfl rfl
  | firstRead hd => exact (hd.packedPart hok).in_loop (hd.pack_i hok) rfl rfl
  | firstWrite hd => exact (hd.packedPart hok).in_loop (hd.pack_i hok) rfl rfl
  | secondRead hd hk hf => exact (hd.packedPart_firstByte hok hk hf).in_loop (hd.pack_i hok :) rfl rfl
  | secondWrite hd hk hf => exact (hd.packedPart_firstByte hok hk hf).in_loop (hd.pack_i hok :) rfl rfl
  | done hd => exact ⟨_, false, (hd.packedPart hok).deliver _ _, nofun⟩

end

/-- Settles O47: every state of a PACK is one of those above, and BUF holds part of the packed form in each. -/
theorem resetDuringPackLeavesPrefix : Obligations.ResetDuringPackLeavesPrefix := by
  unfold Obligations.ResetDuringPackLeavesPrefix
  intro w n len s t ticked ha h
  have hok : (accept (.pack w n len) s).operandsOk = true := (operandsOk_iff _).mpr ha
  obtain ⟨k, half, hpart, hpoint⟩ := (packPasses_of_ticks ha h).stands rfl hok
  have hfield (j : Nat) {b : Nat} (hb : b < w.toNat) : t.bufBit (j * w.toNat + b) = (s.bufBit (j * w.toNat + b) ||
      (positionDone w.toNat k half (j * w.toNat + b) && (s.srcWord j).getLsbD (w.toNat - 1 - b))) :=
    hpart.fieldBit j hb
  refine ⟨rfl, hpart.src, hpart.dst, rfl, fun point hp => ⟨fun hout => ?_, fun hin => ?_⟩, fun j _ b hb => ?_,
    fun p hp => hpart.bufBit_beyond hp⟩
  · obtain ⟨rfl, rfl⟩ := (hpoint point hp).1 hout
    exact hpart.bufBit_of_zero
  · obtain ⟨rfl, rfl⟩ := (hpoint point hp).2 hin
    refine ⟨hpart.le, hpart.spills, fun j _ b hb => ?_⟩
    rw [hfield j hb, positionDone_field hb, State.fieldBitDone, hpart.width]
    rfl
  · rw [hfield j hb]
    refine ⟨fun hs => by rw [hs, Bool.true_or], fun ht => ?_⟩
    exact (Bool.or_eq_true_iff.mp ht).imp_right fun hnew => (Bool.and_eq_true_iff.mp hnew).2

/-! ### The states of an UNPACK (rules R38, R172) -/

/-- The forms of the states that the UNPACK accepted in `a` passes through, access by access. -/
inductive UnpackPasses (a : State) : State → Prop
  | check : UnpackPasses a a
  | rejected (st : Status) (info : Nat) : UnpackPasses a (deliver st info a)
  | read {k : Nat} {e : State} (h : StepsDone unpackElement a k e) : UnpackPasses a (e.goto .unpackRead)
  | secondRead {k : Nat} {e : State} (h : StepsDone unpackElement a k e) (hk : k < a.n.toNat)
      (hf : ¬ fits e.bitpos.toNat e.w.toNat) :
      UnpackPasses a (e.goto (.unpackSecondRead (e.bufByte (byteIndex e.bitpos.toNat))))
  | write {k : Nat} {e : State} (h : StepsDone unpackElement a k e) (hk : k < a.n.toNat) :
      UnpackPasses a (e.goto (.unpackWrite (unpackedField e)))
  | done {k : Nat} {e : State} (h : StepsDone unpackElement a k e) : UnpackPasses a (deliver .ok e.needed e)

theorem UnpackPasses.tick {a s t : State} {p : Point} (ha : a.activity = .busy .check) (hop : a.op = 2#2)
    (hok : a.operandsOk = true) (hs : UnpackPasses a s) (hp : s.activity = .busy p) (h : tick p s = .next t) :
    UnpackPasses a t := by
  cases hs with
  | check =>
    cases ha.symm.trans hp
    cases tick_cases h with
    | answer => exact .rejected _ _
    | startScan hop' => exact absurd (hop.symm.trans hop') (by decide)
    | startPack hop' => exact absurd (hop.symm.trans hop') (by decide)
    | startUnpack => exact .read stepsDone_zero
  | rejected => cases hp
  | @read k e hd =>
    cases hp
    by_cases hk : k < a.n.toNat
    · cases (tick_unpackRead (hd.atElement unpackLoopByAccess hok hk)).symm.trans h
      split
      · next hf => rw [← unpackedField_of_fits hf]; exact .write hd hk
      · next hf => exact .secondRead hd hk hf
    · cases (hd.finish unpackLoopByAccess hok hk).symm.trans h
      exact .done hd
  | secondRead hd hk hf =>
    cases hp
    have hat := hd.atElement unpackLoopByAccess hok hk
    cases (tick_unpackSecondRead (hat.second_lt hf) _).symm.trans h
    rw [← unpackedField_of_spills hf]
    exact .write hd hk
  | write hd hk =>
    cases hp
    have hat := hd.atElement unpackLoopByAccess hok hk
    cases (tick_unpackWrite hat _).symm.trans h
    exact .read (hd.succ hk (unpackElement_next hat))
  | done => cases hp

theorem unpackPasses_of_ticks {w : WidthOperand} {n len : CountOperand} {s t : State} {k : Nat}
    (ha : s.accepts w n len) (h : ticks k (accept (.unpack w n len) s) = .next t) :
    UnpackPasses (accept (.unpack w n len) s) t :=
  ticks_keep (fun _ _ _ hp ht hs => hs.tick rfl rfl ((operandsOk_iff (accept (.unpack w n len) s)).mpr ha) hp ht) k h
    .check

/-- Past validation an UNPACK that is not at its end stands after some of its element steps. -/
theorem UnpackPasses.stepsDone {a t : State} {p : Point} (ha : a.activity = .busy .check) (h : UnpackPasses a t)
    (hp : t.activity = .busy p) (hne : p ≠ .check) : ∃ k e, StepsDone unpackElement a k e ∧ t = e.goto p := by
  cases h with
  | check => cases ha.symm.trans hp; exact absurd rfl hne
  | rejected => cases hp
  | read hd => cases hp; exact ⟨_, _, hd, rfl⟩
  | secondRead hd => cases hp; exact ⟨_, _, hd, rfl⟩
  | write hd => cases hp; exact ⟨_, _, hd, rfl⟩
  | done => cases hp

/-- A word whose low `w` bits are a field, the most significant bit first, and whose other bits are 0 (rule R106). -/
theorem word_of_field {v : Value} {w : Nat} {field : Nat → Bool}
    (h : ∀ b, v.getLsbD b = (decide (b < w) && field (w - 1 - b))) :
    v.toNat < 2 ^ w ∧ ∀ b < w, v.getLsbD (w - 1 - b) = field b := by
  refine ⟨Nat.lt_pow_two_of_testBit _ fun b hb => ?_, fun b hb => ?_⟩
  · rw [BitVec.testBit_toNat, h, decide_eq_false (not_lt.mpr hb), Bool.false_and]
  · have hback : w - 1 - (w - 1 - b) = b := by omega
    rw [h, hback, decide_eq_true (by omega), Bool.true_and]

/-- Settles O48: such a state stands after `I` element steps, which have written DST up to there. -/
theorem resetDuringUnpackLeavesPrefix : Obligations.ResetDuringUnpackLeavesPrefix := by
  unfold Obligations.ResetDuringUnpackLeavesPrefix
  intro w n len s t ticked p ha h hp hne
  have hok : (accept (.unpack w n len) s).operandsOk = true := (operandsOk_iff _).mpr ha
  obtain ⟨k, e, hd, rfl⟩ := (unpackPasses_of_ticks ha h).stepsDone rfl hp hne
  obtain ⟨m, rfl, hfields, hothers⟩ := elements_unpack_from_start hok hd.le hd.run
  have hi := atCursor_i (buf := (accept (.unpack w n len) s).buf) (dst := m) hd.le
  refine ⟨rfl, rfl, rfl, rfl, fun j hj => ?_, fun j hj => hothers j (hi ▸ hj)⟩
  exact word_of_field (field := fun b => s.bufBit (j * w.toNat + b)) (hfields j (hi ▸ hj))

end Sys2Proof.Machine
end
